-- ==== Sys2Proof/Word.lean ====
section
/-! DEFINITION. The two word types of the CORE: the 8-bit byte (R10, R30) and the 9-bit program counter (R17). -/

namespace Sys2Proof

/-- A register, a memory cell, an operand byte: an unsigned 8-bit value (`10_state.md` R10, `20_memory.md` R30). -/
abbrev Byte := BitVec 8

/-- The program counter's 9 bits, enough to hold 256, the address one past the end of memory (`10_state.md` R17).
DESIGN CHOICE (D1 of the spec), log 5. -/
abbrev PcWord := BitVec 9

end Sys2Proof
end

