-- ==== Sys2Proof/Config.lean ====
section
/-! DEFINITION. The implementation parameters of `00_scope.md` section 4. The spec fixes all of them but `image`, which is
the argument of `Machine.State.construct`; no value is left free, so nothing here is opaque. -/

namespace Sys2Proof.Config

/-- MEM_SIZE (`20_memory.md` R30). -/
def memSize : Nat := 256

/-- MEM_FILL, what a cell the image does not cover holds (`20_memory.md` R45).
DESIGN CHOICE (D4 of the spec), unsafe, log 4. -/
def memFill : Byte := 0x00

/-- SP_RESET (`10_state.md` R13). -/
def spReset : Byte := 0xF4

/-- GPR_RESET, the reset value of R0 to R6 (`10_state.md` R15). DESIGN CHOICE (D2 of the spec), unsafe, log 2. -/
def gprReset : Byte := 0x00

/-- PC_RESET, the entry point (`10_state.md` R16). -/
def pcReset : PcWord := 0

/-- E_RESET (`10_state.md` R19). DESIGN CHOICE (D3 of the spec), unsafe, log 3. -/
def equalReset : Bool := false

end Sys2Proof.Config
end

