-- ==== Sys2Proof/Machine/State.lean ====
section
/-! DEFINITION. The CORE's whole state (`10_state.md`, `20_memory.md` R30), the error kinds it reports, the reasons a step can
have no next state, and the state after reset with no image. -/

namespace Sys2Proof.Machine

/-- The ALU operation names the source uses (`41_alu.md` R92, R94): three the ALU computes, ten it does not. -/
inductive AluOp where
  | add | sub | mul
  | div | mod | and | or | xor | shl | shr | not | inc | dec
  deriving DecidableEq, Repr

/-- The four core error kinds with their information (`10_state.md` R22, `60_exceptions.md` R150). -/
inductive CoreError where
  /-- a memory operation was asked for this address, 256 or more (R151) -/
  | outOfBounds (addr : Nat)
  /-- a handler accessed a register with this index, 8 or more (R152) -/
  | invalidRegister (index : Byte)
  /-- the ALU was asked for an operation it does not compute (R153); no program can raise it -/
  | unsupportedOperation (op : AluOp)
  /-- the fetched opcode byte is not in the table (R154) -/
  | illegalInstruction (opcode : Byte)
  deriving DecidableEq, Repr

/-- The run state RUN (`10_state.md` R21). -/
inductive RunState where
  | running | halted
  deriving DecidableEq, Repr

/-- Memory as the list of the cells that differ from `Config.memFill`, addresses strictly rising (`Memory.wf` in Ops). -/
abbrev Memory := List Host.Cell

/-- Everything the spec gives the machine (`10_state.md` R10, R16, R19, R21, R22, R24; `20_memory.md` R30). -/
structure State where
  /-- `x[0]` to `x[7]`; `x[7]` is the stack pointer, `x[5]` and `x[6]` the names IM and IS (R10, R13, R14) -/
  regs : Vector Byte 8
  /-- between steps, the address of the opcode the next step fetches (R16, R17) -/
  pc : PcWord
  /-- the Equal flag `E` (R19) -/
  equal : Bool
  /-- the 256 memory cells -/
  mem : Memory
  /-- RUN (R21) -/
  run : RunState
  /-- ERR (R22) -/
  err : Option CoreError
  /-- OUT, the bytes PRN has printed, oldest first (R24); host-side, held here by DESIGN CHOICE, log 8 -/
  out : List Byte
  deriving DecidableEq, Repr

/-- Why the machine takes no step. The four error kinds of the spec are not here: raising one is a next state (R157),
log 7. -/
inductive Fault where
  /-- Raised by `step` alone, when RUN is Halted: `Halted` is absorbing and no step is defined in it
  (`40_execution_loop.md` R81). Safe, log 6. -/
  | machineHalted
  deriving DecidableEq, Repr

/-- Why an instruction has no meaning. -/
inductive Refusal where
  /-- Raised by `exec` for an instruction not modelled yet; no arm raises it now. Safe. -/
  | notModelled (mnemonic : String)
  deriving DecidableEq, Repr

/-- The machine right after reset with the empty image: memory lists nothing, so every cell reads `Config.memFill`
(`10_state.md` R27, `70_reset_and_hazards.md` R180). `State.construct` is reset with an image. -/
def State.reset : State where
  regs := #v[Config.gprReset, Config.gprReset, Config.gprReset, Config.gprReset,
             Config.gprReset, Config.gprReset, Config.gprReset, Config.spReset]
  pc := Config.pcReset
  equal := Config.equalReset
  mem := []
  run := .running
  err := none
  out := []

end Sys2Proof.Machine
end

