-- ==== Sys2Proof/Machine/Ops.lean ====
section
/-! DEFINITION. The named operations over memory, registers, PC, run state and output, the fault entry, and reset with an
image. Every reader and writer of State goes through these. -/

namespace Sys2Proof.Machine

/-! ### The memory array -/

/-- The content of cell `a`: the listed byte, or the fill of `20_memory.md` R45. -/
def Memory.cell : Memory → Nat → Byte
  | [], _ => Config.memFill
  | (k, v) :: m, a => if k = a then v else Memory.cell m a

/-- The canonical form: addresses strictly rising, each a cell of the array, and no entry equal to the fill. -/
abbrev Memory.wf (m : Memory) : Prop :=
  m.Pairwise (fun c d => c.1 < d.1) ∧ ∀ c ∈ m, c.1 < Config.memSize ∧ c.2 ≠ Config.memFill

/-- Put an entry at its place in a list of rising addresses. -/
def Memory.insert (a : Nat) (v : Byte) : Memory → Memory
  | [] => [(a, v)]
  | (k, w) :: m => if a < k then (a, v) :: (k, w) :: m else (k, w) :: Memory.insert a v m

/-- Memory with cell `a` holding `v`, in canonical form; exactly one cell changes (`20_memory.md` R32). -/
def Memory.put (m : Memory) (a : Nat) (v : Byte) : Memory :=
  let rest : Memory := m.filter (fun c => c.1 ≠ a)
  if v = Config.memFill then rest else Memory.insert a v rest

/-- The content of cell `a` of the machine's memory. -/
def State.cell (s : State) (a : Nat) : Byte := s.mem.cell a

/-- `MemRead(addr, 1)`: the address is not reduced, and one of 256 or more is a failure (`20_memory.md` R31). -/
def memRead (s : State) (addr : Nat) : Except CoreError Byte :=
  if addr < Config.memSize then .ok (s.cell addr) else .error (.outOfBounds addr)

/-- `MemWrite(addr, 1, v)`: fails as the read does, never wraps and is never dropped (`20_memory.md` R32; D6, log 21). -/
def memWrite (s : State) (addr : Nat) (v : Byte) : Except CoreError State :=
  if addr < Config.memSize then .ok { s with mem := s.mem.put addr v } else .error (.outOfBounds addr)

/-! ### Registers, stack pointer, PC, run state, output -/

/-- `x[r]` for a valid index (`10_state.md` R11). -/
def State.x (s : State) (r : Fin 8) : Byte := s.regs[r.val]

/-- `x[r] <- v` for a valid index (`10_state.md` R11). No register is hardwired (R12). -/
def State.setX (s : State) (r : Fin 8) (v : Byte) : State := { s with regs := s.regs.set r.val v r.isLt }

/-- SP_INDEX: the stack pointer is register 7, not a field of its own (`10_state.md` R13). -/
def spIndex : Fin 8 := 7

/-- SP, another spelling of `x[7]` (`10_state.md` R13). -/
def State.sp (s : State) : Byte := s.x spIndex

/-- Write SP, that is `x[7]` (`10_state.md` R13). -/
def State.setSp (s : State) (v : Byte) : State := s.setX spIndex v

/-- The loop's advance by the instruction's length (`40_execution_loop.md` R78). Nine bits, which no step from a reachable
state overflows (`10_state.md` R17; log 5). -/
def State.advance (s : State) (n : Nat) : State := { s with pc := s.pc + BitVec.ofNat 9 n }

/-- `pc <- zext_9(t)`: an absolute target (`45_compare_branch.md` R134). -/
def State.jump (s : State) (t : Byte) : State := { s with pc := t.setWidth 9 }

/-- `RUN <- Halted` (`10_state.md` R21). -/
def State.halt (s : State) : State := { s with run := .halted }

/-- `emit(v)`: append to OUT (`42_ldi_prn.md` R102). -/
def State.emit (s : State) (v : Byte) : State := { s with out := s.out ++ [v] }

/-! ### The fault entry -/

/-- The state `raise e` leaves, from the state the step began in: RUN and ERR change and nothing else does, so no write of the
faulting step is kept and PC stays at its opcode (`60_exceptions.md` R157; D7, log 7). There is no return from it (R159). -/
def State.raised (s : State) (e : CoreError) : State := { s with run := .halted, err := some e }

/-- Complete an instruction begun in `s`: keep all of its writes, or raise its fault and keep none
(`40_execution_loop.md` R79). -/
def commit (s : State) (effect : Except CoreError State) : Host.Outcome State Fault Refusal :=
  match effect with
  | .ok t => .next t
  | .error e => .next (s.raised e)

/-- The numeric status code of an error report (`60_exceptions.md` R150, R156; D17, log 18). Nothing in the machine
reads it. -/
def errCode : Option CoreError → Nat
  | none => 0
  | some (.outOfBounds _) => 1
  | some (.invalidRegister _) => 2
  | some (.unsupportedOperation _) => 3
  | some (.illegalInstruction _) => 4

/-! ### Reset with an image -/

/-- Write image bytes to ascending addresses from `a`, through the memory block's write (`20_memory.md` R45,
`40_execution_loop.md` R71). -/
def loadImage : List Byte → Nat → State → Except CoreError State
  | [], _, s => .ok s
  | v :: image, a, s => do
    let s' ← memWrite s a v
    loadImage image (a + 1) s'

/-- Machine construction with a program image: `reset(image)` of `70_reset_and_hazards.md` R180. An image of more than 256
bytes is refused, by the failing write of address 256, and no machine is started (`20_memory.md` R45; D4, log 21). -/
def State.construct (image : List Byte) : Except CoreError State := loadImage image 0 State.reset

end Sys2Proof.Machine
end

