-- ==== Sys2Proof/Machine/Operands.lean ====
section
/-! DEFINITION. The operand forms (`30_encoding.md` R56): a register operand is the whole operand byte, checked when the
register is accessed; an immediate is used exactly as stored and needs no operation. There is no other form. -/

namespace Sys2Proof.Machine

/-- `CheckReg(i)`, answering the register named: the index is neither masked nor wrapped (`10_state.md` R11). -/
def checkReg (i : Byte) : Except CoreError (Fin 8) :=
  if h : i.toNat < 8 then .ok ⟨i.toNat, h⟩ else .error (.invalidRegister i)

/-- The register file's `get(index)` (`10_state.md` R11, `40_execution_loop.md` R72). -/
def getReg (s : State) (i : Byte) : Except CoreError Byte := do
  let r ← checkReg i
  .ok (s.x r)

/-- The register file's `set(index, byte)` (`10_state.md` R11, `40_execution_loop.md` R72). -/
def setReg (s : State) (i : Byte) (v : Byte) : Except CoreError State := do
  let r ← checkReg i
  .ok (s.setX r v)

end Sys2Proof.Machine
end

