-- ==== Sys2Proof/Machine/Alu.lean ====
section
/-! DEFINITION. The ALU block and its two instructions, ADD and MUL (`41_alu.md`). -/

namespace Sys2Proof.Machine

/-- The ALU's function: unsigned, modulo 256, silent on overflow (`41_alu.md` R92, R95); `p` is the destination's old value.
SUB is computed and reached by no opcode (R93); the ten other names are unsupported (R94). -/
def alu (op : AluOp) (p q : Byte) : Except CoreError Byte :=
  match op with
  | .add => .ok (p + q)
  | .sub => .ok (p - q)
  | .mul => .ok (p * q)
  | .div | .mod | .and | .or | .xor | .shl | .shr | .not | .inc | .dec => .error (.unsupportedOperation op)

/-- The ALU's interface `apply(op, destRegister, sourceRegister)`: one register write and nothing else
(`40_execution_loop.md` R73). Registers are checked in operand order, before the operation (DEDUCED, log 9). -/
def aluApply (op : AluOp) (dest source : Byte) (s : State) : Except CoreError State := do
  let p ← getReg s dest
  let q ← getReg s source
  let v ← alu op p q
  setReg s dest v

/-- ADD ra, rb (`41_alu.md` R90). -/
def execAdd (a b : Byte) (s : State) : Host.Outcome State Fault Refusal :=
  commit s do
    let s₁ ← aluApply .add a b s
    .ok (s₁.advance 3)

/-- MUL ra, rb (`41_alu.md` R91). -/
def execMul (a b : Byte) (s : State) : Host.Outcome State Fault Refusal :=
  commit s do
    let s₁ ← aluApply .mul a b s
    .ok (s₁.advance 3)

end Sys2Proof.Machine
end

