-- ==== Sys2Proof/Machine/Flags.lean ====
section
/-! DEFINITION. The one flag, Equal (`10_state.md` R19, R20): its computation, its write (the CMP handler's alone) and its
read (JEQ and JNE's alone). ADD and MUL compute no flag (`41_alu.md` R96). -/

namespace Sys2Proof.Machine

/-- What CMP writes: whether two bytes are the same (`45_compare_branch.md` R130). -/
def equalOf (p q : Byte) : Bool := p == q

/-- `E <- e` (`10_state.md` R19). -/
def State.setEqual (s : State) (e : Bool) : State := { s with equal := e }

end Sys2Proof.Machine
end

