-- ==== Sys2Proof/Machine/Branch.lean ====
section
/-! DEFINITION. Compare and branch (`45_compare_branch.md`). CMP is straight-line; JMP, JEQ and JNE are PC-owning, so a
transfer to the instruction's own address leaves PC where it is (`40_execution_loop.md` R78; D15, log 13). -/

namespace Sys2Proof.Machine

/-- CMP ra, rb (`45_compare_branch.md` R130): it writes the flag on every execution, and no register. -/
def execCmp (a b : Byte) (s : State) : Host.Outcome State Fault Refusal :=
  commit s do
    let p ← getReg s a
    let q ← getReg s b
    .ok ((s.setEqual (equalOf p q)).advance 3)

/-- `pc <- zext_9(x[a])` after the index check (`45_compare_branch.md` R134). -/
def branchTo (a : Byte) (s : State) : Except CoreError State := do
  let t ← getReg s a
  .ok (s.jump t)

/-- JMP ra (`45_compare_branch.md` R131). -/
def execJmp (a : Byte) (s : State) : Host.Outcome State Fault Refusal :=
  commit s (branchTo a s)

/-- JEQ ra (`45_compare_branch.md` R132): the register is accessed, and its index checked, only when the branch is taken
(D10, log 16). -/
def execJeq (a : Byte) (s : State) : Host.Outcome State Fault Refusal :=
  commit s (if s.equal = true then branchTo a s else .ok (s.advance 2))

/-- JNE ra (`45_compare_branch.md` R133): as JEQ with the sense inverted. -/
def execJne (a : Byte) (s : State) : Host.Outcome State Fault Refusal :=
  commit s (if s.equal = false then branchTo a s else .ok (s.advance 2))

end Sys2Proof.Machine
end

