-- ==== Sys2Proof/Machine/Halt.lean ====
section
/-! DEFINITION. HLT (`46_halt.md`). -/

namespace Sys2Proof.Machine

/-- HLT (`46_halt.md` R140): RUN becomes Halted; ERR stays None and PC keeps the address of the HLT opcode (D16, log 14). -/
def execHlt (s : State) : Host.Outcome State Fault Refusal := commit s (.ok s.halt)

end Sys2Proof.Machine
end

