-- ==== Sys2Proof/Machine/LoadPrint.lean ====
section
/-! DEFINITION. Load immediate and print (`42_ldi_prn.md`). -/

namespace Sys2Proof.Machine

/-- LDI ra, imm (`42_ldi_prn.md` R100): the immediate is used as it stands and is never checked. -/
def execLdi (a imm : Byte) (s : State) : Host.Outcome State Fault Refusal :=
  commit s do
    let s₁ ← setReg s a imm
    .ok (s₁.advance 3)

/-- PRN ra (`42_ldi_prn.md` R101). -/
def execPrn (a : Byte) (s : State) : Host.Outcome State Fault Refusal :=
  commit s do
    let v ← getReg s a
    .ok ((s.emit v).advance 2)

/-- How the host renders one printed value: unsigned, base 10, no leading zeros, no sign (`42_ldi_prn.md` R102). What
separates two values is outside the model (D18, log 25). -/
def decimal (v : Byte) : String := toString v.toNat

end Sys2Proof.Machine
end

