-- ==== Sys2Proof/Machine/Stack.lean ====
section
/-! DEFINITION. The stack instructions (`43_stack.md`). Statements run in the order written and each sees the register
writes before it, which shows when the operand is register 7 (R112; D11, log 12). -/

namespace Sys2Proof.Machine

/-- `SP <- (SP - 1) mod 256`; the wrap at 0x00 is silent (`10_state.md` R13; D5, log 10). -/
def State.decSp (s : State) : State := s.setSp (s.sp - 1)

/-- `SP <- (SP + 1) mod 256`; the wrap at 0xFF is silent (`10_state.md` R13; D5, log 10). -/
def State.incSp (s : State) : State := s.setSp (s.sp + 1)

/-- PUSH ra (`43_stack.md` R110): the index check, the decrement, the store of `x[a]` read after it at the new SP. -/
def execPush (a : Byte) (s : State) : Host.Outcome State Fault Refusal :=
  commit s do
    let r ← checkReg a
    let s₁ := s.decSp
    let s₂ ← memWrite s₁ s₁.sp.toNat (s₁.x r)
    .ok (s₂.advance 2)

/-- POP ra (`43_stack.md` R111): the index check, the load from the old SP, the increment of what `x[7]` then is. -/
def execPop (a : Byte) (s : State) : Host.Outcome State Fault Refusal :=
  commit s do
    let r ← checkReg a
    let v ← memRead s s.sp.toNat
    let s₁ := (s.setX r v).incSp
    .ok (s₁.advance 2)

end Sys2Proof.Machine
end

