-- ==== Sys2Proof/Machine/Subroutine.lean ====
section
/-! DEFINITION. Subroutine linkage (`44_subroutine.md`). Both instructions are PC-owning. -/

namespace Sys2Proof.Machine

/-- CALL's return address, the address of the byte after it; it never wraps, and one of 256 or more can be neither stored in
a cell nor returned to (`44_subroutine.md` R120; D12, log 11). -/
def returnAddress (s : State) : Except CoreError Byte :=
  let ret := s.pc.toNat + 2
  if ret < Config.memSize then .ok (BitVec.ofNat 8 ret) else .error (.outOfBounds ret)

/-- CALL ra (`44_subroutine.md` R120): the index check, the return-address check, the push, and the jump to `x[a]` read after
the SP update. -/
def execCall (a : Byte) (s : State) : Host.Outcome State Fault Refusal :=
  commit s do
    let r ← checkReg a
    let ret ← returnAddress s
    let s₁ ← memWrite s (s.sp - 1).toNat ret
    let s₂ := s₁.decSp
    .ok (s₂.jump (s₂.x r))

/-- RET (`44_subroutine.md` R121): the load from the old SP, the increment, the jump. -/
def execRet (s : State) : Host.Outcome State Fault Refusal :=
  commit s do
    let t ← memRead s s.sp.toNat
    .ok (s.incSp.jump t)

end Sys2Proof.Machine
end

