-- ==== Sys2Proof/Syntax.lean ====
section
/-! DEFINITION. The instruction set: one constructor per row of the opcode table (`30_encoding.md` R55), in the table's order.
An operand is the whole operand byte as fetched (R56): a register operand above 7 is an instruction too, and fails when
the register is accessed. -/

namespace Sys2Proof

/-- The thirteen instructions of `30_encoding.md` R55. -/
inductive Instr where
  /-- `ADD ra, rb` (`41_alu.md` R90) -/
  | add (a b : Byte)
  /-- `MUL ra, rb` (`41_alu.md` R91) -/
  | mul (a b : Byte)
  /-- `LDI ra, imm` (`42_ldi_prn.md` R100) -/
  | ldi (a imm : Byte)
  /-- `PRN ra` (`42_ldi_prn.md` R101) -/
  | prn (a : Byte)
  /-- `PUSH ra` (`43_stack.md` R110) -/
  | push (a : Byte)
  /-- `POP ra` (`43_stack.md` R111) -/
  | pop (a : Byte)
  /-- `CALL ra` (`44_subroutine.md` R120) -/
  | call (a : Byte)
  /-- `RET` (`44_subroutine.md` R121) -/
  | ret
  /-- `CMP ra, rb` (`45_compare_branch.md` R130) -/
  | cmp (a b : Byte)
  /-- `JMP ra` (`45_compare_branch.md` R131) -/
  | jmp (a : Byte)
  /-- `JEQ ra` (`45_compare_branch.md` R132) -/
  | jeq (a : Byte)
  /-- `JNE ra` (`45_compare_branch.md` R133) -/
  | jne (a : Byte)
  /-- `HLT` (`46_halt.md` R140) -/
  | hlt
  deriving DecidableEq, Repr

end Sys2Proof
end

