-- ==== Sys2Proof/Decode.lean ====
section
/-! DEFINITION. The opcode table, the decoder over it, and the encoder (`30_encoding.md`). Decoding is an exact match of the
whole opcode byte against thirteen values; the operand bytes follow it at ascending addresses. -/

namespace Sys2Proof

/-- Who updates PC after an instruction: the dispatch table's tag (`40_execution_loop.md` R74, R78). -/
inductive PcClass where
  /-- the loop adds the instruction's length -/
  | straightLine
  /-- the handler sets PC and the loop adds nothing -/
  | pcOwning
  /-- PC is not written -/
  | stop
  deriving DecidableEq, Repr

/-- One row of the opcode table (`30_encoding.md` R55). -/
structure OpcodeRow where
  /-- the opcode byte, all eight bits of it -/
  opcode : Byte
  /-- how many operand bytes follow -/
  operands : Nat
  /-- who updates PC -/
  pcClass : PcClass
  /-- the instruction with operand bytes `a` and `b`; one the row has no operand for is ignored -/
  build : Byte → Byte → Instr

/-- The complete opcode table, in the source's order (`30_encoding.md` R55). -/
def opcodeTable : List OpcodeRow :=
  [⟨0b10100000, 2, .straightLine, fun a b => .add a b⟩,
   ⟨0b10100010, 2, .straightLine, fun a b => .mul a b⟩,
   ⟨0b10000010, 2, .straightLine, fun a b => .ldi a b⟩,
   ⟨0b01000111, 1, .straightLine, fun a _ => .prn a⟩,
   ⟨0b01000101, 1, .straightLine, fun a _ => .push a⟩,
   ⟨0b01000110, 1, .straightLine, fun a _ => .pop a⟩,
   ⟨0b01010000, 1, .pcOwning, fun a _ => .call a⟩,
   ⟨0b00010001, 0, .pcOwning, fun _ _ => .ret⟩,
   ⟨0b10100111, 2, .straightLine, fun a b => .cmp a b⟩,
   ⟨0b01010100, 1, .pcOwning, fun a _ => .jmp a⟩,
   ⟨0b01010101, 1, .pcOwning, fun a _ => .jeq a⟩,
   ⟨0b01010110, 1, .pcOwning, fun a _ => .jne a⟩,
   ⟨0b00000001, 0, .stop, fun _ _ => .hlt⟩]

/-- The dispatcher's exact match: the table row of an opcode byte, or none for the illegal ones (`30_encoding.md` R55,
R57; `40_execution_loop.md` R74). -/
def lookup (op : Byte) : Option OpcodeRow := opcodeTable.find? (fun row => row.opcode == op)

/-- Fetch and decode one instruction through `read`, which gives the byte at an offset from the opcode: the opcode, the
exact match, then the operand bytes the row counts, in ascending order (`40_execution_loop.md` R76, R77). No operand is read for
an illegal opcode, none beyond the row's count, and the first failing read is the answer. The machine's fetch and `decode`
on a list of bytes are this one function over two readers. -/
def decodeFrom {ε : Type} (illegal : Byte → ε) (read : Nat → Except ε Byte) : Except ε Instr := do
  let op ← read 0
  match lookup op with
  | none => .error (illegal op)
  | some row =>
    let a ← if 1 ≤ row.operands then read 1 else .ok 0
    let b ← if row.operands = 2 then read 2 else .ok 0
    .ok (row.build a b)

/-- Why bytes are no instruction. -/
inductive DecodeError where
  /-- the byte at this offset from the opcode is missing -/
  | truncated (offset : Nat)
  /-- the opcode byte is not one of the thirteen (`30_encoding.md` R57) -/
  | illegalOpcode (op : Byte)
  deriving DecidableEq, Repr

/-- The instruction at the head of a list of bytes. Total: it answers an instruction or rejects by name; the offset in
`truncated` is the model's own (DESIGN CHOICE, safe, log 23). -/
def decode (bytes : List Byte) : Except DecodeError Instr :=
  decodeFrom .illegalOpcode fun k =>
    match bytes[k]? with
    | some v => .ok v
    | none => .error (.truncated k)

/-- The bytes of an instruction, the opcode first (`30_encoding.md` R51, R55). -/
def encode : Instr → List Byte
  | .add a b => [0xA0, a, b]
  | .mul a b => [0xA2, a, b]
  | .ldi a imm => [0x82, a, imm]
  | .prn a => [0x47, a]
  | .push a => [0x45, a]
  | .pop a => [0x46, a]
  | .call a => [0x50, a]
  | .ret => [0x11]
  | .cmp a b => [0xA7, a, b]
  | .jmp a => [0x54, a]
  | .jeq a => [0x55, a]
  | .jne a => [0x56, a]
  | .hlt => [0x01]

/-- The longest instruction's length in bytes (`30_encoding.md` R50). -/
def maxLength : Nat := 3

/-- Byte `k` of an instruction whose `nbits` table bits are `w`, the first byte least significant; every bit above `nbits`
is 0 (log 23). -/
def tableByte (nbits w k : Nat) : Byte := if 8 * k < nbits then BitVec.ofNat 8 (w / 2 ^ (8 * k)) else 0

/-- The bytes, up to the longest instruction, of a table word. -/
def tableBytes (nbits w : Nat) : List Byte := (List.range maxLength).map (tableByte nbits w)

/-- The instruction the decoder reads from a table word of `nbits` bits, bit 0 the least significant bit of the first
byte; none where it refuses. -/
def decodeTableWord (nbits w : Nat) : Option Instr :=
  match decode (tableBytes nbits w) with
  | .ok i => some i
  | .error _ => none

end Sys2Proof
end

