-- ==== Sys2Proof/Machine/Fetch.lean ====
section
/-! DEFINITION. The fetch unit (`40_execution_loop.md` R75, R76) and the placing of bytes where it reads them. -/

namespace Sys2Proof.Machine

/-- Fetch the opcode at PC, match it, and fetch its operand bytes from the addresses after it. The reads are the memory block's,
at the moment the step begins, so a store by the step before is seen (`20_memory.md` R43, log 26); addresses never wrap. -/
def fetchInstr (s : State) : Except CoreError Instr :=
  decodeFrom .illegalInstruction fun k => memRead s (s.pc.toNat + k)

/-- Memory with bytes placed at ascending addresses from `a`; a byte with no cell is dropped. Not a move of the machine. -/
def placeBytes : List Byte → Nat → Memory → Memory
  | [], _, m => m
  | v :: bytes, a, m => placeBytes bytes (a + 1) (if a < Config.memSize then m.put a v else m)

end Sys2Proof.Machine
end

