-- ==== Sys2Proof/Machine/Step.lean ====
section
/-! DEFINITION. The fetch, decode, execute, advance step (`40_execution_loop.md` R77), and the host's placing of one
instruction where it is fetched. -/

namespace Sys2Proof.Machine

/-- One step. It is defined only when RUN is Running (`40_execution_loop.md` R77, R81); a fault of the fetch or of the
dispatcher is raised before any handler runs. -/
def step (s : State) : Host.Outcome State Fault Refusal :=
  match s.run with
  | .halted => .fault .machineHalted
  | .running =>
    match fetchInstr s with
    | .error e => commit s (.error e)
    | .ok i => exec i s

/-- `s` with a table word's bytes stored from PC on, so that the next step of a Running machine fetches it (logs 1 and 23). -/
def State.withFetchWord (s : State) (nbits w : Nat) : State :=
  { s with mem := placeBytes (tableBytes nbits w) s.pc.toNat s.mem }

end Sys2Proof.Machine
end

