-- ==== Sys2Proof/WellFormed.lean ====
section
/-! DEFINITION. Which instructions are well formed: every register operand names one of the eight registers (`30_encoding.md`
R58 writes only `r0` to `r7`; `70_reset_and_hazards.md` R183 makes it the program's obligation). Neither the decoder nor
the machine uses the check: an ill-formed instruction decodes and runs, and raises `InvalidRegister` when it accesses the
register (R56). DESIGN CHOICE, safe, log 17. -/

namespace Sys2Proof

/-- The operand bytes of an instruction that are register indices, in operand order (`30_encoding.md` R51). LDI's second
operand is an immediate and is not one. -/
def Instr.registerOperands : Instr → List Byte
  | .add a b => [a, b]
  | .mul a b => [a, b]
  | .ldi a _ => [a]
  | .prn a => [a]
  | .push a => [a]
  | .pop a => [a]
  | .call a => [a]
  | .ret => []
  | .cmp a b => [a, b]
  | .jmp a => [a]
  | .jeq a => [a]
  | .jne a => [a]
  | .hlt => []

/-- Every register operand is an index 0 to 7 (`10_state.md` R11). -/
abbrev Instr.WellFormed (i : Instr) : Prop := ∀ a ∈ i.registerOperands, a.toNat < 8

end Sys2Proof
end

