-- ==== Sys2Proof/Safety.lean ====
section
/-! DEFINITION. The words claims use: the invariant of every reachable state, how a run ends well, what an instruction leaves
unchanged, what stands in memory at the program counter, the spec's lists of who accesses and who writes a register,
and where a PC-owning handler leaves PC. -/

namespace Sys2Proof.Machine

/-- What holds in every reachable state (`10_state.md` R28) and, of the model's memory, its canonical form. The bounds on
bytes and on `E` are the types'. -/
structure State.Inv (s : State) : Prop where
  pc_le : s.pc.toNat ≤ 256
  err_none_of_running : s.run = .running → s.err = none
  halted_of_err : s.err ≠ none → s.run = .halted
  mem_wf : s.mem.wf

/-- A run has ended well: stopped by HLT, not by a fault (`60_exceptions.md` R159, `70_reset_and_hazards.md` R186). -/
def State.EndedWell (s : State) : Prop := s.run = .halted ∧ s.err = none

/-- A safe step: the machine takes it and it raises no fault. -/
def SafeStep (s t : State) : Prop := step s = .next t ∧ t.err = none

/-- Every register but those listed reads as before. -/
def SameRegsBut (s t : State) (written : List (Fin 8)) : Prop := ∀ r, r ∉ written → t.x r = s.x r

/-- Every cell but those listed reads as before. -/
def SameCellsBut (s t : State) (stored : List Nat) : Prop := ∀ a, a ∉ stored → t.cell a = s.cell a

/-- The run state and the error report are as before. -/
def SameRunErr (s t : State) : Prop := t.run = s.run ∧ t.err = s.err

/-- The cells from address `a` on hold these bytes. -/
def HoldsAt (s : State) (a : Nat) (bytes : List Byte) : Prop := ∀ k v, bytes[k]? = some v → s.cell (a + k) = v

/-- A Running machine has instruction `i` at its PC, wholly inside memory. -/
def Fetches (s : State) (i : Instr) : Prop :=
  s.run = .running ∧ s.pc.toNat + (encode i).length ≤ 256 ∧ HoldsAt s s.pc.toNat (encode i)

/-- An instruction rule's encoding and fetch faults: these are its bytes; a Running machine that has all of them at PC runs its
handler; one whose PC holds the opcode with an operand byte beyond address 255 raises `OutOfBounds(256)`, and one whose PC is
256 or more raises `OutOfBounds(pc)`, before the handler (`40_execution_loop.md` R75, R76, R77). -/
def EncodedAs (i : Instr) (bytes : List Byte) : Prop :=
  encode i = bytes ∧
  (∀ s : State, s.run = .running → s.pc.toNat + bytes.length ≤ 256 → HoldsAt s s.pc.toNat bytes → step s = exec i s) ∧
  (∀ s : State, s.run = .running → s.pc.toNat < 256 → 256 < s.pc.toNat + bytes.length →
    bytes.head? = some (s.cell s.pc.toNat) →
    step s = .next { s with run := .halted, err := some (.outOfBounds 256) }) ∧
  (∀ s : State, s.run = .running → 256 ≤ s.pc.toNat →
    step s = .next { s with run := .halted, err := some (.outOfBounds s.pc.toNat) })

/-- The thirteen legal opcode bytes, as `95_test_vectors.md` section 4 lists them. -/
def legalOpcodes : List Byte :=
  [0x01, 0x11, 0x45, 0x46, 0x47, 0x50, 0x54, 0x55, 0x56, 0x82, 0xA0, 0xA2, 0xA7]

/-- The operand bytes whose register an instruction accesses in a state, in order (`60_exceptions.md` R152): JEQ and JNE access
theirs only when taken. -/
def accessedRegisters (s : State) : Instr → List Byte
  | .jeq a => if s.equal = true then [a] else []
  | .jne a => if s.equal = true then [] else [a]
  | i => i.registerOperands

/-- The registers an instruction may write: its destination operand and, for the stack instructions, SP (`10_state.md` R12,
R14; `41_alu.md` to `44_subroutine.md`). -/
def writtenRegisters : Instr → List Nat
  | .add a _ => [a.toNat]
  | .mul a _ => [a.toNat]
  | .ldi a _ => [a.toNat]
  | .pop a => [a.toNat, 7]
  | .push _ => [7]
  | .call _ => [7]
  | .ret => [7]
  | .prn _ => []
  | .cmp _ _ => []
  | .jmp _ => []
  | .jeq _ => []
  | .jne _ => []
  | .hlt => []

/-- PC as a PC-owning handler leaves it (`40_execution_loop.md` R78): the register's byte for JMP, for a taken JEQ or JNE and, read
after the SP update, for CALL; the stack's byte for RET; the two-byte fall-through for JEQ and JNE not taken. No other instruction
owns PC. -/
def OwnedPc (s t : State) : Instr → Prop
  | .call a => ∃ ha : a.toNat < 8, t.pc.toNat = (if a.toNat = 7 then s.x 7 - 1 else s.x ⟨a.toNat, ha⟩).toNat
  | .ret => t.pc.toNat = (s.cell (s.x 7).toNat).toNat
  | .jmp a => ∃ ha : a.toNat < 8, t.pc.toNat = (s.x ⟨a.toNat, ha⟩).toNat
  | .jeq a => if s.equal = true then ∃ ha : a.toNat < 8, t.pc.toNat = (s.x ⟨a.toNat, ha⟩).toNat else t.pc = s.pc + 2
  | .jne a => if s.equal = true then t.pc = s.pc + 2 else ∃ ha : a.toNat < 8, t.pc.toNat = (s.x ⟨a.toNat, ha⟩).toNat
  | .add _ _ | .mul _ _ | .ldi _ _ | .prn _ | .push _ | .pop _ | .cmp _ _ | .hlt => False

end Sys2Proof.Machine
end

