-- ==== Sys2Proof/Certificates/Slice0/Obligations.lean ====
section
/-! DEFINITION. The statements about the CORE. A raised fault is written out as the state it leaves, `run` and `err` changed
and nothing else (`60_exceptions.md` R157). `⟨a.toNat, ha⟩` is the register a valid operand byte `a` names. -/

open Sys2Proof Sys2Proof.Machine

/-! ### Encoding -/

/-- Decoding and encoding agree (`30_encoding.md` R50, R51, R55, R56): bytes decode to an instruction exactly when they begin
with its encoding, for every instruction and every operand byte. -/
def Obligations.DecodesExactlyTheEncodedPrefix : Prop :=
  ∀ (bytes : List Byte) (i : Instr), decode bytes = .ok i ↔ encode i <+: bytes

/-- `30_encoding.md` R57: an opcode byte outside the thirteen is illegal whatever follows it, 0x00 among them; there are 243
such bytes; an opcode byte of the thirteen is never refused for its operand bytes; and a machine that fetches an illegal one
halts with the report. -/
def Obligations.OpcodesOutsideTheTableAreIllegal : Prop :=
  (∀ (op : Byte) (rest : List Byte), op ∉ legalOpcodes → decode (op :: rest) = .error (.illegalOpcode op)) ∧
  (∀ op a b : Byte, op ∈ legalOpcodes → ∃ i, decode [op, a, b] = .ok i) ∧
  (0x00 : Byte) ∉ legalOpcodes ∧
  ((List.range 256).filter (fun n => BitVec.ofNat 8 n ∉ legalOpcodes)).length = 243 ∧
  ∀ s : State, s.run = .running → s.pc.toNat < 256 → s.cell s.pc.toNat ∉ legalOpcodes →
    step s = .next { s with run := .halted, err := some (.illegalInstruction (s.cell s.pc.toNat)) }

/-- `30_encoding.md` R52: the two high bits of the opcode byte are the number of operand bytes, 0, 1 or 2, so the length of an
instruction is one more; on an illegal opcode they are not used. -/
def Obligations.HighOpcodeBitsCountTheOperands : Prop :=
  (∀ i : Instr, ∃ op rest, encode i = op :: rest ∧ rest.length = op.toNat / 64 ∧ op.toNat / 64 ≤ 2 ∧
    (encode i).length = 1 + op.toNat / 64) ∧
  ∀ (op : Byte) (rest : List Byte), op.toNat / 64 = 3 → decode (op :: rest) = .error (.illegalOpcode op)

/-- Words written out from the table of `30_encoding.md` R55 and the source's scenario (`95_test_vectors.md` S7) decode to the
instructions they stand for. -/
def Obligations.SampleWordsDecodeAsTheTableSays : Prop :=
  decode [0b10000010, 0b00000000, 0b00001010] = .ok (.ldi 0 10) ∧
  decode [0b10100000, 0b00000000, 0b00000001] = .ok (.add 0 1) ∧
  decode [0b01000111, 0b00000000] = .ok (.prn 0) ∧
  decode [0b00000001] = .ok .hlt ∧
  decode [0b01010110, 0b00000101] = .ok (.jne 5) ∧
  decode [0b00010001, 0xFF] = .ok .ret ∧
  decode [0b10100001, 0, 1] = .error (.illegalOpcode 0xA1)

/-! ### The memory block -/

/-- `20_memory.md` R31: a read at 256 or more fails with `OutOfBounds` of that very address, never wraps; a read below gives
the cell; no state is an output of the read. -/
def Obligations.MemReadIsBoundChecked : Prop :=
  ∀ (s : State) (a : Nat),
    (256 ≤ a → memRead s a = .error (.outOfBounds a)) ∧ (a < 256 → memRead s a = .ok (s.cell a))

/-- A write changes exactly one cell and nothing else, and the next read of that cell sees it (`20_memory.md` sections 1 and 2);
outside the array it fails and writes nothing (the spec's decision D6). -/
def Obligations.MemWriteChangesExactlyOneCell : Prop :=
  ∀ (s : State) (a : Nat) (v : Byte),
    (256 ≤ a → memWrite s a v = .error (.outOfBounds a)) ∧
    (a < 256 → ∃ t, memWrite s a v = .ok t ∧ memRead t a = .ok v ∧ SameCellsBut s t [a] ∧ t.regs = s.regs ∧
      t.pc = s.pc ∧ t.equal = s.equal ∧ SameRunErr s t ∧ t.out = s.out ∧ (s.mem.wf → t.mem.wf))

/-- The model's memory is canonical: two well-formed memories that read alike at every address are the same data. -/
def Obligations.CanonicalMemoriesWithEqualCellsAreEqual : Prop :=
  ∀ m n : Memory, m.wf → n.wf → (∀ a, m.cell a = n.cell a) → m = n

/-- Reset with an image (`70_reset_and_hazards.md` section 1, `20_memory.md` section 6). From the source: the image bytes from
address 0, PC 0, register 7 at 0xF4, Running. The spec's decisions D2, D3, D4, D17: R0 to R6, `E` and the rest of memory zero,
no error, and the refusal of an image of more than 256 bytes. That the refusal is the value `OutOfBounds(256)` is the model's DEDUCED
reading (log 21). -/
def Obligations.ConstructPlacesTheImageAndResetsTheRest : Prop :=
  (∀ image : List Byte, image.length ≤ 256 → ∃ t, State.construct image = .ok t ∧
    (∀ a, t.cell a = image.getD a 0x00) ∧ t.mem.wf ∧ t.x 7 = 0xF4 ∧ (∀ r, r ≠ 7 → t.x r = 0x00) ∧ t.pc = 0 ∧
    t.equal = false ∧ t.run = .running ∧ t.err = none ∧ t.out = []) ∧
  (∀ image : List Byte, 256 < image.length → State.construct image = .error (.outOfBounds 256)) ∧
  State.construct [] = .ok State.reset

/-! ### The register file and the ALU -/

/-- `10_state.md` R11: register access by the whole operand byte; 8 and above fails with `InvalidRegister` on read and on write;
below, a write is seen by a read of the same index and leaves every other register. -/
def Obligations.RegisterAccessIsIndexChecked : Prop :=
  ∀ (s : State) (i v : Byte),
    (8 ≤ i.toNat → getReg s i = .error (.invalidRegister i) ∧ setReg s i v = .error (.invalidRegister i)) ∧
    (∀ hi : i.toNat < 8, getReg s i = .ok (s.x ⟨i.toNat, hi⟩) ∧
      ∃ t, setReg s i v = .ok t ∧ t.x ⟨i.toNat, hi⟩ = v ∧ getReg t i = .ok v ∧ SameRegsBut s t [⟨i.toNat, hi⟩] ∧
        t = { s with regs := t.regs })

/-- `41_alu.md` R92: the ALU's function on unsigned values modulo 256, and `UnsupportedOperation` for every other operation. -/
def Obligations.AluComputesModulo256 : Prop :=
  ∀ p q : Byte,
    (∃ v, alu .add p q = .ok v ∧ v.toNat = (p.toNat + q.toNat) % 256) ∧
    (∃ v, alu .sub p q = .ok v ∧ (v.toNat : Int) = ((p.toNat : Int) - q.toNat) % 256) ∧
    (∃ v, alu .mul p q = .ok v ∧ v.toNat = p.toNat * q.toNat % 256) ∧
    ∀ op, op ≠ .add → op ≠ .sub → op ≠ .mul → alu op p q = .error (.unsupportedOperation op)

/-- The ALU's interface (`40_execution_loop.md` section 2, R73): one write, into the destination register, of the function's value
on the two registers read; an operation it does not compute, or an invalid index, fails. That a bad index is reported before a bad
operation is the model's DEDUCED order (log 9). -/
def Obligations.AluApplyWritesOnlyItsDestination : Prop :=
  ∀ (op : AluOp) (d e : Byte) (s : State),
    (∀ (hd : d.toNat < 8) (he : e.toNat < 8),
      (∀ v, alu op (s.x ⟨d.toNat, hd⟩) (s.x ⟨e.toNat, he⟩) = .ok v →
        ∃ t, aluApply op d e s = .ok t ∧ t.x ⟨d.toNat, hd⟩ = v ∧ SameRegsBut s t [⟨d.toNat, hd⟩] ∧
          t = { s with regs := t.regs }) ∧
      (op ≠ .add → op ≠ .sub → op ≠ .mul → aluApply op d e s = .error (.unsupportedOperation op))) ∧
    (8 ≤ d.toNat → aluApply op d e s = .error (.invalidRegister d)) ∧
    (d.toNat < 8 → 8 ≤ e.toNat → aluApply op d e s = .error (.invalidRegister e))

/-! ### The instructions -/

/-- `41_alu.md` R90, ADD: its bytes, its sum, its frame, its faults. -/
def Obligations.AddStoresTheSum : Prop :=
  ∀ a b : Byte, EncodedAs (.add a b) [0xA0, a, b] ∧ ∀ s : State,
    (∀ (ha : a.toNat < 8) (hb : b.toNat < 8), ∃ t, exec (.add a b) s = .next t ∧
      (t.x ⟨a.toNat, ha⟩).toNat = ((s.x ⟨a.toNat, ha⟩).toNat + (s.x ⟨b.toNat, hb⟩).toNat) % 256 ∧
      t.pc = s.pc + 3 ∧ SameRegsBut s t [⟨a.toNat, ha⟩] ∧ t.equal = s.equal ∧ SameCellsBut s t [] ∧
      SameRunErr s t ∧ t.out = s.out) ∧
    (8 ≤ a.toNat → exec (.add a b) s = .next { s with run := .halted, err := some (.invalidRegister a) }) ∧
    (a.toNat < 8 → 8 ≤ b.toNat →
      exec (.add a b) s = .next { s with run := .halted, err := some (.invalidRegister b) })

/-- `41_alu.md` R91, MUL: its bytes, the low byte of its product, its frame, its faults. -/
def Obligations.MulStoresTheLowByteOfTheProduct : Prop :=
  ∀ a b : Byte, EncodedAs (.mul a b) [0xA2, a, b] ∧ ∀ s : State,
    (∀ (ha : a.toNat < 8) (hb : b.toNat < 8), ∃ t, exec (.mul a b) s = .next t ∧
      (t.x ⟨a.toNat, ha⟩).toNat = (s.x ⟨a.toNat, ha⟩).toNat * (s.x ⟨b.toNat, hb⟩).toNat % 256 ∧
      t.pc = s.pc + 3 ∧ SameRegsBut s t [⟨a.toNat, ha⟩] ∧ t.equal = s.equal ∧ SameCellsBut s t [] ∧
      SameRunErr s t ∧ t.out = s.out) ∧
    (8 ≤ a.toNat → exec (.mul a b) s = .next { s with run := .halted, err := some (.invalidRegister a) }) ∧
    (a.toNat < 8 → 8 ≤ b.toNat →
      exec (.mul a b) s = .next { s with run := .halted, err := some (.invalidRegister b) })

/-- `42_ldi_prn.md` R100, LDI: every immediate is loaded as it stands. -/
def Obligations.LdiLoadsTheImmediate : Prop :=
  ∀ a imm : Byte, EncodedAs (.ldi a imm) [0x82, a, imm] ∧ ∀ s : State,
    (∀ ha : a.toNat < 8, ∃ t, exec (.ldi a imm) s = .next t ∧ t.x ⟨a.toNat, ha⟩ = imm ∧
      t.pc = s.pc + 3 ∧ SameRegsBut s t [⟨a.toNat, ha⟩] ∧ t.equal = s.equal ∧ SameCellsBut s t [] ∧
      SameRunErr s t ∧ t.out = s.out) ∧
    (8 ≤ a.toNat → exec (.ldi a imm) s = .next { s with run := .halted, err := some (.invalidRegister a) })

/-- `42_ldi_prn.md` R101, PRN: the register's value is appended to OUT, and no register, flag or cell changes. -/
def Obligations.PrnAppendsTheRegister : Prop :=
  ∀ a : Byte, EncodedAs (.prn a) [0x47, a] ∧ ∀ s : State,
    (∀ ha : a.toNat < 8, ∃ t, exec (.prn a) s = .next t ∧ t.out = s.out ++ [s.x ⟨a.toNat, ha⟩] ∧
      t.pc = s.pc + 2 ∧ SameRegsBut s t [] ∧ t.equal = s.equal ∧ SameCellsBut s t [] ∧ SameRunErr s t) ∧
    (8 ≤ a.toNat → exec (.prn a) s = .next { s with run := .halted, err := some (.invalidRegister a) })

/-- PUSH (`43_stack.md` section 1). SP wraps at 0 by the spec's decision D5 (log 10); with register 7 as the operand the decremented
SP is stored, by its decision D11 (log 12). -/
def Obligations.PushStoresBelowTheStackPointer : Prop :=
  ∀ a : Byte, EncodedAs (.push a) [0x45, a] ∧ ∀ s : State,
    (∀ ha : a.toNat < 8, ∃ t, exec (.push a) s = .next t ∧ t.x 7 = s.x 7 - 1 ∧
      t.cell (s.x 7 - 1).toNat = (if a.toNat = 7 then s.x 7 - 1 else s.x ⟨a.toNat, ha⟩) ∧
      SameCellsBut s t [(s.x 7 - 1).toNat] ∧ SameRegsBut s t [7] ∧ t.pc = s.pc + 2 ∧ t.equal = s.equal ∧
      SameRunErr s t ∧ t.out = s.out) ∧
    (8 ≤ a.toNat → exec (.push a) s = .next { s with run := .halted, err := some (.invalidRegister a) })

/-- POP (`43_stack.md` section 2). SP wraps at 0xFF by the spec's decision D5 (log 10); with register 7 as the operand the register
ends as the loaded byte plus one, by its decision D11 (log 12). -/
def Obligations.PopLoadsFromTheStackPointer : Prop :=
  ∀ a : Byte, EncodedAs (.pop a) [0x46, a] ∧ ∀ s : State,
    (∀ ha : a.toNat < 8, ∃ t, exec (.pop a) s = .next t ∧
      (a.toNat ≠ 7 → t.x ⟨a.toNat, ha⟩ = s.cell (s.x 7).toNat ∧ t.x 7 = s.x 7 + 1) ∧
      (a.toNat = 7 → t.x 7 = s.cell (s.x 7).toNat + 1) ∧
      SameRegsBut s t [⟨a.toNat, ha⟩, 7] ∧ SameCellsBut s t [] ∧ t.pc = s.pc + 2 ∧ t.equal = s.equal ∧
      SameRunErr s t ∧ t.out = s.out) ∧
    (8 ≤ a.toNat → exec (.pop a) s = .next { s with run := .halted, err := some (.invalidRegister a) })

/-- CALL (`44_subroutine.md` section 1). The spec's decisions: SP wraps (D5, log 10), a target in register 7 is the new SP (D11,
log 12), a return address of 256 or more is refused before anything is written (D12, log 11), after the register check (D8, log 9). -/
def Obligations.CallPushesTheReturnAddressAndJumps : Prop :=
  ∀ a : Byte, EncodedAs (.call a) [0x50, a] ∧ ∀ s : State,
    (∀ ha : a.toNat < 8, s.pc.toNat + 2 < 256 → ∃ t, exec (.call a) s = .next t ∧
      t.pc.toNat = (if a.toNat = 7 then s.x 7 - 1 else s.x ⟨a.toNat, ha⟩).toNat ∧ t.x 7 = s.x 7 - 1 ∧
      (t.cell (s.x 7 - 1).toNat).toNat = s.pc.toNat + 2 ∧ SameCellsBut s t [(s.x 7 - 1).toNat] ∧
      SameRegsBut s t [7] ∧ t.equal = s.equal ∧ SameRunErr s t ∧ t.out = s.out) ∧
    (8 ≤ a.toNat → exec (.call a) s = .next { s with run := .halted, err := some (.invalidRegister a) }) ∧
    (a.toNat < 8 → 256 ≤ s.pc.toNat + 2 →
      exec (.call a) s = .next { s with run := .halted, err := some (.outOfBounds (s.pc.toNat + 2)) })

/-- RET (`44_subroutine.md` section 2). SP wraps at 0xFF by the spec's decision D5 (log 10). -/
def Obligations.RetJumpsToTheStackedByte : Prop :=
  EncodedAs .ret [0x11] ∧ ∀ s : State, ∃ t, exec .ret s = .next t ∧
    t.pc.toNat = (s.cell (s.x 7).toNat).toNat ∧ t.x 7 = s.x 7 + 1 ∧ SameRegsBut s t [7] ∧ SameCellsBut s t [] ∧
    t.equal = s.equal ∧ SameRunErr s t ∧ t.out = s.out

/-- `45_compare_branch.md` R130, CMP: the flag is written on every execution, no register is. -/
def Obligations.CmpSetsTheFlagToEquality : Prop :=
  ∀ a b : Byte, EncodedAs (.cmp a b) [0xA7, a, b] ∧ ∀ s : State,
    (∀ (ha : a.toNat < 8) (hb : b.toNat < 8), ∃ t, exec (.cmp a b) s = .next t ∧
      (t.equal = true ↔ s.x ⟨a.toNat, ha⟩ = s.x ⟨b.toNat, hb⟩) ∧
      t.pc = s.pc + 3 ∧ SameRegsBut s t [] ∧ SameCellsBut s t [] ∧ SameRunErr s t ∧ t.out = s.out) ∧
    (8 ≤ a.toNat → exec (.cmp a b) s = .next { s with run := .halted, err := some (.invalidRegister a) }) ∧
    (a.toNat < 8 → 8 ≤ b.toNat →
      exec (.cmp a b) s = .next { s with run := .halted, err := some (.invalidRegister b) })

/-- `45_compare_branch.md` R131, JMP: PC becomes the register's content, zero-extended, and nothing else changes. -/
def Obligations.JmpGoesToTheRegister : Prop :=
  ∀ a : Byte, EncodedAs (.jmp a) [0x54, a] ∧ ∀ s : State,
    (∀ ha : a.toNat < 8, ∃ t, exec (.jmp a) s = .next t ∧ t.pc.toNat = (s.x ⟨a.toNat, ha⟩).toNat ∧
      SameRegsBut s t [] ∧ SameCellsBut s t [] ∧ t.equal = s.equal ∧ SameRunErr s t ∧ t.out = s.out) ∧
    (8 ≤ a.toNat → exec (.jmp a) s = .next { s with run := .halted, err := some (.invalidRegister a) })

/-- JEQ (`45_compare_branch.md` section 3): taken when E is 1. Not taken, the register is not accessed and an operand above 7 raises
nothing, by the spec's decision D10 (log 16). -/
def Obligations.JeqBranchesWhenEqual : Prop :=
  ∀ a : Byte, EncodedAs (.jeq a) [0x55, a] ∧ ∀ s : State,
    (∀ ha : a.toNat < 8, s.equal = true → ∃ t, exec (.jeq a) s = .next t ∧
      t.pc.toNat = (s.x ⟨a.toNat, ha⟩).toNat ∧
      SameRegsBut s t [] ∧ SameCellsBut s t [] ∧ t.equal = s.equal ∧ SameRunErr s t ∧ t.out = s.out) ∧
    (s.equal = false → ∃ t, exec (.jeq a) s = .next t ∧ t.pc = s.pc + 2 ∧
      SameRegsBut s t [] ∧ SameCellsBut s t [] ∧ t.equal = s.equal ∧ SameRunErr s t ∧ t.out = s.out) ∧
    (8 ≤ a.toNat → s.equal = true →
      exec (.jeq a) s = .next { s with run := .halted, err := some (.invalidRegister a) })

/-- JNE (`45_compare_branch.md` section 4): taken when E is 0. Not taken, the register is not accessed and an operand above 7 raises
nothing, by the spec's decision D10 (log 16). -/
def Obligations.JneBranchesWhenNotEqual : Prop :=
  ∀ a : Byte, EncodedAs (.jne a) [0x56, a] ∧ ∀ s : State,
    (∀ ha : a.toNat < 8, s.equal = false → ∃ t, exec (.jne a) s = .next t ∧
      t.pc.toNat = (s.x ⟨a.toNat, ha⟩).toNat ∧
      SameRegsBut s t [] ∧ SameCellsBut s t [] ∧ t.equal = s.equal ∧ SameRunErr s t ∧ t.out = s.out) ∧
    (s.equal = true → ∃ t, exec (.jne a) s = .next t ∧ t.pc = s.pc + 2 ∧
      SameRegsBut s t [] ∧ SameCellsBut s t [] ∧ t.equal = s.equal ∧ SameRunErr s t ∧ t.out = s.out) ∧
    (8 ≤ a.toNat → s.equal = false →
      exec (.jne a) s = .next { s with run := .halted, err := some (.invalidRegister a) })

/-- HLT (`46_halt.md`): RUN becomes Halted and nothing else changes. That PC keeps the address of the HLT opcode is the spec's
decision D16 (log 14). -/
def Obligations.HltHaltsAndWritesNothingElse : Prop :=
  EncodedAs .hlt [0x01] ∧ ∀ s : State, exec .hlt s = .next { s with run := .halted }

/-! ### The step -/

/-- A Running machine whose bytes from PC to the end of memory decode to an instruction takes exactly that instruction's step
(`40_execution_loop.md` section 4). -/
def Obligations.StepRunsTheDecodedInstruction : Prop :=
  ∀ (s : State) (i : Instr), s.run = .running →
    decode ((List.range (256 - s.pc.toNat)).map (fun k => s.cell (s.pc.toNat + k))) = .ok i → step s = exec i s

/-- The order of a step's causes of fault (`60_exceptions.md` section 3, the spec's decision D8): the opcode fetch, the dispatcher,
the operand fetches, the registers in operand order, CALL's return address. -/
def Obligations.FaultsAreRaisedInTheOrderOfTheStep : Prop :=
  (∀ s : State, s.run = .running →
    (256 ≤ s.pc.toNat → step s = .next { s with run := .halted, err := some (.outOfBounds s.pc.toNat) }) ∧
    (s.pc.toNat < 256 → s.cell s.pc.toNat ∉ legalOpcodes →
      step s = .next { s with run := .halted, err := some (.illegalInstruction (s.cell s.pc.toNat)) }) ∧
    (s.pc.toNat < 256 → s.cell s.pc.toNat ∈ legalOpcodes → 256 ≤ s.pc.toNat + (s.cell s.pc.toNat).toNat / 64 →
      step s = .next { s with run := .halted, err := some (.outOfBounds 256) }) ∧
    (s.cell s.pc.toNat ∈ legalOpcodes → s.pc.toNat + (s.cell s.pc.toNat).toNat / 64 < 256 →
      ∃ i, Fetches s i ∧ step s = exec i s)) ∧
  (∀ (s : State) (a b : Byte) (i : Instr), 8 ≤ a.toNat → i ∈ [.add a b, .mul a b, .cmp a b, .call a] →
    exec i s = .next { s with run := .halted, err := some (.invalidRegister a) })

/-- `60_exceptions.md` R154: fetching an opcode not in the dispatch table halts the machine with an `IllegalInstruction` report of
that byte, and changes nothing else; no operand is fetched, so it is the report at address 255 too. -/
def Obligations.IllegalOpcodeHaltsWithItsReport : Prop :=
  ∀ s : State, s.run = .running → s.pc.toNat < 256 → s.cell s.pc.toNat ∉ legalOpcodes →
    ∃ t, step s = .next t ∧ t.run = .halted ∧ t.err = some (.illegalInstruction (s.cell s.pc.toNat)) ∧
      SameRegsBut s t [] ∧ SameCellsBut s t [] ∧ t.pc = s.pc ∧ t.equal = s.equal ∧ t.out = s.out

/-- `10_state.md` R21: RUN starts Running; a Running machine becomes Halted exactly by HLT or by raising a fault; a Halted
machine takes no step (its stop is the fault `machineHalted`, DESIGN CHOICE, log 6). -/
def Obligations.RunChangesOnlyByHltOrFault : Prop :=
  State.reset.run = .running ∧
  (∀ s : State, s.run = .halted → ∀ t, step s ≠ .next t) ∧
  (∀ s t : State, s.run = .running → step s = .next t →
    (t.run = .halted ↔ Fetches s .hlt ∨ ∃ e, t = { s with run := .halted, err := some e }))

/-- A Running machine always has a next step, and never faults or refuses in the host's sense (`70_reset_and_hazards.md` section 4). -/
def Obligations.RunningMachineAlwaysSteps : Prop :=
  ∀ s : State, s.run = .running → ∃ t, step s = .next t

/-- Reset satisfies the invariant of `10_state.md` section 9. -/
def Obligations.ResetSatisfiesTheInvariant : Prop := State.reset.Inv

/-- Every step keeps the invariant of `10_state.md` section 9: PC at most 256, a Running machine without error report, an error
report only on a Halted one, memory in canonical form. -/
def Obligations.StepKeepsTheInvariant : Prop :=
  ∀ s t : State, s.Inv → step s = .next t → t.Inv

/-- A run of any length from a Running state that satisfies the invariant is never stuck: either it is still going, or it halted
on the way, the invariant holding in both (`40_execution_loop.md` section 5, `70_reset_and_hazards.md` sections 4 and 5). -/
def Obligations.RunsGoOnUntilHalted : Prop :=
  ∀ (k : Nat) (s : State), s.Inv → s.run = .running →
    (∃ t, Host.Core.run core k s = .next t ∧ t.Inv) ∨
    (∃ j, j < k ∧ ∃ t : State, Host.Core.run core j s = .next t ∧ t.run = .halted ∧ t.Inv)

/-- A step that raises a fault changes RUN and ERR and nothing else, PC included (`60_exceptions.md` section 2, the spec's
decision D7, log 7). -/
def Obligations.FaultingStepWritesNothing : Prop :=
  ∀ s t : State, s.err = none → step s = .next t → t.err ≠ none → t = { s with run := .halted, err := t.err }

/-- The flag is written by CMP alone, over every step of the machine (`10_state.md` section 3). -/
def Obligations.OnlyCmpWritesTheFlag : Prop :=
  ∀ s t : State, step s = .next t → t.equal ≠ s.equal → ∃ a b, Fetches s (.cmp a b)

/-- `10_state.md` R24: OUT is empty at reset, is appended to by every PRN of a valid register, by that register's value, and by
nothing else, and is read by nothing: the step is the same whatever OUT already holds. -/
def Obligations.OutGrowsOnlyByPrnAndIsNeverRead : Prop :=
  State.reset.out = [] ∧
  ∀ (s t : State) (o : List Byte), step s = .next t →
    ∃ d, t.out = s.out ++ d ∧ step { s with out := o } = .next { t with out := o ++ d } ∧
      (∀ (a : Byte) (ha : a.toNat < 8), Fetches s (.prn a) → d = [s.x ⟨a.toNat, ha⟩]) ∧
      (d = [] ∨ ∃ (a : Byte) (ha : a.toNat < 8), Fetches s (.prn a) ∧ d = [s.x ⟨a.toNat, ha⟩])

/-- Memory is written by PUSH and CALL alone, and only at `(SP - 1) mod 256`, over every step (`20_memory.md` section 2). -/
def Obligations.OnlyPushAndCallWriteMemory : Prop :=
  ∀ (s t : State) (w : Nat), step s = .next t → t.cell w ≠ s.cell w →
    w = (s.x 7 - 1).toNat ∧ ∃ a, Fetches s (.push a) ∨ Fetches s (.call a)

/-- A register is written only by an instruction that names it as its destination, SP also by PUSH, POP, CALL and RET
(`10_state.md` section 1): no step writes R5 or R6 implicitly. -/
def Obligations.RegistersAreWrittenOnlyByTheirWriters : Prop :=
  ∀ (s t : State) (r : Fin 8), step s = .next t → t.x r ≠ s.x r → ∃ i, Fetches s i ∧ r.val ∈ writtenRegisters i

/-- A register other than SP that the fetched instruction does not name neither influences the step nor is influenced by it:
in particular R5 and R6 mask and report nothing (`10_state.md` section 1, `60_exceptions.md` section 4). -/
def Obligations.UnnamedRegisterIsInert : Prop :=
  ∀ (s t : State) (r : Fin 8) (v : Byte) (i : Instr), r ≠ 7 → Fetches s i →
    (∀ a ∈ i.registerOperands, a.toNat ≠ r.val) → step s = .next t →
    t.x r = s.x r ∧ step (s.setX r v) = .next (t.setX r v)

/-- Every `OutOfBounds` a run can report is of address 256 (`60_exceptions.md` section 1, derived there). -/
def Obligations.OutOfBoundsReports256 : Prop :=
  ∀ (s t : State) (a : Nat), s.Inv → step s = .next t → t.err = some (.outOfBounds a) → a = 256

/-- No step reports `UnsupportedOperation` (`60_exceptions.md` section 1, derived there; the spec's decisions D13, D14, log 15). -/
def Obligations.NoStepReportsUnsupportedOperation : Prop :=
  ∀ (s t : State) (op : AluOp), s.Inv → step s = .next t → t.err ≠ some (.unsupportedOperation op)

/-- `60_exceptions.md` R152: a handler raises `InvalidRegister` exactly when it accesses a register of index 8 or more, and reports
the first such operand; RET and HLT access none, LDI's immediate is none, JEQ and JNE access theirs only when taken. -/
def Obligations.InvalidRegisterIsTheFirstBadAccess : Prop :=
  ∀ (i : Instr) (s : State) (k : Byte), s.err = none →
    ((∃ t, exec i s = .next t ∧ t.err = some (.invalidRegister k)) ↔
      (accessedRegisters s i).find? (fun a => 8 ≤ a.toNat) = some k)

/-- A well-formed instruction whose CALL return address fits always completes without a fault. The check is the model's reading of
the program's obligation (`70_reset_and_hazards.md` section 3; DESIGN CHOICE, log 17). -/
def Obligations.WellFormedInstructionsComplete : Prop :=
  ∀ (i : Instr) (s : State), i.WellFormed → s.err = none → (∀ a, i = .call a → s.pc.toNat + 2 < 256) →
    ∃ t, exec i s = .next t ∧ t.err = none

/-- A run ends well exactly when a step fetches opcode 0x01 inside memory (`70_reset_and_hazards.md` section 5). -/
def Obligations.EndsWellExactlyAtHlt : Prop :=
  ∀ s t : State, s.Inv → step s = .next t → (t.EndedWell ↔ s.pc.toNat < 256 ∧ s.cell s.pc.toNat = 0x01)

/-- The dispatch table's tag decides the PC update (`40_execution_loop.md` section 4; table-driven by the spec's decision D15, log 13):
after a handler that raises nothing, a straight-line row's PC has advanced by one more than its operand count, a stop row's has not
moved (the spec's decision D16, log 14), and a PC-owning row's is exactly what its handler set, the register's or the stack's byte or
the two-byte fall-through, with nothing added (CALL of register 7 by the spec's decision D11, log 12). -/
def Obligations.PcFollowsTheTableTag : Prop :=
  ∀ (row : OpcodeRow) (a b : Byte) (s t : State), row ∈ opcodeTable → s.err = none →
    exec (row.build a b) s = .next t → t.err = none →
    (row.pcClass = .straightLine → t.pc = s.pc + BitVec.ofNat 9 (1 + row.operands)) ∧
    (row.pcClass = .stop → t.pc = s.pc) ∧
    (row.pcClass = .pcOwning → OwnedPc s t (row.build a b))

/-- A jump to its own address stays there (`40_execution_loop.md` section 4; the spec's decision D15, log 13): the machine is in the
same state after the step. -/
def Obligations.JumpToItselfDoesNotAdvance : Prop :=
  ∀ (s : State) (a : Byte) (ha : a.toNat < 8), Fetches s (.jmp a) → (s.x ⟨a.toNat, ha⟩).toNat = s.pc.toNat →
    step s = .next s

/-! ### Instructions together -/

/-- PUSH then POP of the same register is a round trip of every register, R7 included, and leaves every cell but the slot
(`43_stack.md` section 4, derived there; for R7 by the spec's decision D11, log 12). -/
def Obligations.PushThenPopIsARoundTrip : Prop :=
  ∀ (s : State) (a : Byte), a.toNat < 8 → ∃ t u, exec (.push a) s = .next t ∧ exec (.pop a) t = .next u ∧
    SameRegsBut s u [] ∧ SameCellsBut s u [(s.x 7 - 1).toNat] ∧ u.pc = s.pc + 4 ∧ u.equal = s.equal ∧ SameRunErr s u ∧
    u.out = s.out

/-- The stack is last in, first out, for registers other than SP (`43_stack.md` section 4, derived there; SP itself as an operand is
covered by the PUSH and POP statements). -/
def Obligations.StackIsLastInFirstOut : Prop :=
  ∀ (s : State) (a b c d : Byte) (ha : a.toNat < 8) (hb : b.toNat < 8) (hc : c.toNat < 8) (hd : d.toNat < 8),
    a ≠ 7 → b ≠ 7 → c ≠ 7 → d ≠ 7 →
    ∃ t u v w, exec (.push a) s = .next t ∧ exec (.push b) t = .next u ∧ exec (.pop c) u = .next v ∧
      exec (.pop d) v = .next w ∧ (c ≠ d → w.x ⟨c.toNat, hc⟩ = s.x ⟨b.toNat, hb⟩) ∧
      w.x ⟨d.toNat, hd⟩ = s.x ⟨a.toNat, ha⟩ ∧ w.x 7 = s.x 7

/-- CALL followed by RET returns to `call_address + 2` with SP and every other register as before (`44_subroutine.md` section 3,
derived there). -/
def Obligations.CallThenRetReturns : Prop :=
  ∀ (s : State) (a : Byte), a.toNat < 8 → s.pc.toNat ≤ 253 → ∃ t u, exec (.call a) s = .next t ∧
    exec .ret t = .next u ∧ u.pc.toNat = s.pc.toNat + 2 ∧ SameRegsBut s u [] ∧
    SameCellsBut s u [(s.x 7 - 1).toNat] ∧ u.equal = s.equal ∧ SameRunErr s u ∧ u.out = s.out

/-- CMP followed by JEQ branches exactly when the two registers were equal, followed by JNE exactly when they were not; otherwise
PC goes on by 2 (`45_compare_branch.md` section 5). -/
def Obligations.CompareThenBranch : Prop :=
  ∀ (s : State) (a b c : Byte) (ha : a.toNat < 8) (hb : b.toNat < 8) (hc : c.toNat < 8),
    ∃ t u v, exec (.cmp a b) s = .next t ∧ exec (.jeq c) t = .next u ∧ exec (.jne c) t = .next v ∧
      (s.x ⟨a.toNat, ha⟩ = s.x ⟨b.toNat, hb⟩ →
        u.pc.toNat = (s.x ⟨c.toNat, hc⟩).toNat ∧ v.pc = s.pc + 3 + 2) ∧
      (s.x ⟨a.toNat, ha⟩ ≠ s.x ⟨b.toNat, hb⟩ →
        v.pc.toNat = (s.x ⟨c.toNat, hc⟩).toNat ∧ u.pc = s.pc + 3 + 2)

/-- The byte a PUSH or a CALL stores is what the very next step fetches (`20_memory.md` section 5, derived there): that step is
the one of a fetch over the memory before the store with the stored byte in the slot, whether the slot is read as the opcode, as an
operand or not at all. The slot wraps by the spec's decision D5 (log 10), the byte of PUSH of register 7 is its decision D11 (log 12),
and CALL's store needs a return address below 256 by its decision D12 (log 11). -/
def Obligations.StoreIsSeenByTheVeryNextFetch : Prop :=
  ∀ (s : State) (i : Instr) (a v : Byte) (ha : a.toNat < 8), Fetches s i →
    (i = .push a ∧ v = (if a.toNat = 7 then s.x 7 - 1 else s.x ⟨a.toNat, ha⟩)) ∨
      (i = .call a ∧ v.toNat = s.pc.toNat + 2) →
    ∃ t, step s = .next t ∧ memRead t (s.x 7 - 1).toNat = .ok v ∧
      ∀ fetched, fetched = (decodeFrom .illegalInstruction fun k =>
          if t.pc.toNat + k = (s.x 7 - 1).toNat then .ok v else memRead s (t.pc.toNat + k)) →
        (∀ j, fetched = .ok j → step t = exec j t) ∧
        (∀ e, fetched = .error e → step t = .next { t with run := .halted, err := some e })
end

