-- ==== Sys2Proof/Laws/Decode.lean ====
section
/-! SUPPORT. What the opcode lookup and the shared decoder can answer. -/

namespace Sys2Proof

/-- The thirteen rows, one by one: a byte with a row is one of the table's opcodes and the row is the table's. -/
theorem lookup_cases {op : Byte} {row : OpcodeRow} (h : lookup op = some row) :
    row ∈ opcodeTable ∧ row.opcode = op :=
  ⟨List.mem_of_find?_eq_some h, by simpa using List.find?_some h⟩

/-- A byte has no row exactly when no row has it as its opcode. -/
theorem lookup_none {op : Byte} : lookup op = none ↔ ∀ row ∈ opcodeTable, row.opcode ≠ op := by
  simp [lookup, List.find?_eq_none]

/-- Every row is found under its own opcode: no two rows share one. -/
theorem lookup_opcode : ∀ row ∈ opcodeTable, lookup row.opcode = some row := by
  intro row h
  simp only [opcodeTable, List.mem_cons, List.not_mem_nil, or_false] at h
  rcases h with h | h | h | h | h | h | h | h | h | h | h | h | h <;> subst h <;> rfl

/-- The opcode of an instruction's encoding has the row that builds it, the row counts its operand bytes, and an operand it does
not count may be taken to be 0. -/
theorem encode_row (i : Instr) : ∃ row a b, row ∈ opcodeTable ∧ i = row.build a b ∧
    encode i = row.opcode :: [a, b].take row.operands ∧ (row.operands = 0 → a = 0) ∧ (row.operands ≤ 1 → b = 0) :=
  match i with
  | .add a b => ⟨opcodeTable[0], a, b, List.getElem_mem _, rfl, ⟨rfl, by simp [opcodeTable], by simp [opcodeTable]⟩⟩
  | .mul a b => ⟨opcodeTable[1], a, b, List.getElem_mem _, rfl, ⟨rfl, by simp [opcodeTable], by simp [opcodeTable]⟩⟩
  | .ldi a b => ⟨opcodeTable[2], a, b, List.getElem_mem _, rfl, ⟨rfl, by simp [opcodeTable], by simp [opcodeTable]⟩⟩
  | .prn a => ⟨opcodeTable[3], a, 0, List.getElem_mem _, rfl, ⟨rfl, by simp [opcodeTable], by simp [opcodeTable]⟩⟩
  | .push a => ⟨opcodeTable[4], a, 0, List.getElem_mem _, rfl, ⟨rfl, by simp [opcodeTable], by simp [opcodeTable]⟩⟩
  | .pop a => ⟨opcodeTable[5], a, 0, List.getElem_mem _, rfl, ⟨rfl, by simp [opcodeTable], by simp [opcodeTable]⟩⟩
  | .call a => ⟨opcodeTable[6], a, 0, List.getElem_mem _, rfl, ⟨rfl, by simp [opcodeTable], by simp [opcodeTable]⟩⟩
  | .ret => ⟨opcodeTable[7], 0, 0, List.getElem_mem _, rfl, ⟨rfl, by simp [opcodeTable], by simp [opcodeTable]⟩⟩
  | .cmp a b => ⟨opcodeTable[8], a, b, List.getElem_mem _, rfl, ⟨rfl, by simp [opcodeTable], by simp [opcodeTable]⟩⟩
  | .jmp a => ⟨opcodeTable[9], a, 0, List.getElem_mem _, rfl, ⟨rfl, by simp [opcodeTable], by simp [opcodeTable]⟩⟩
  | .jeq a => ⟨opcodeTable[10], a, 0, List.getElem_mem _, rfl, ⟨rfl, by simp [opcodeTable], by simp [opcodeTable]⟩⟩
  | .jne a => ⟨opcodeTable[11], a, 0, List.getElem_mem _, rfl, ⟨rfl, by simp [opcodeTable], by simp [opcodeTable]⟩⟩
  | .hlt => ⟨opcodeTable[12], 0, 0, List.getElem_mem _, rfl, ⟨rfl, by simp [opcodeTable], by simp [opcodeTable]⟩⟩

/-- A row's instruction encodes as the row's opcode and the operand bytes the row counts. -/
theorem encode_build : ∀ row ∈ opcodeTable, ∀ a b, encode (row.build a b) = row.opcode :: [a, b].take row.operands := by
  intro row h a b
  simp only [opcodeTable, List.mem_cons, List.not_mem_nil, or_false] at h
  rcases h with h | h | h | h | h | h | h | h | h | h | h | h | h <;> subst h <;> rfl

/-- A row counts 0, 1 or 2 operands. -/
theorem row_operands_le : ∀ row ∈ opcodeTable, row.operands ≤ 2 := by
  intro row h
  simp only [opcodeTable, List.mem_cons, List.not_mem_nil, or_false] at h
  rcases h with h | h | h | h | h | h | h | h | h | h | h | h | h <;> subst h <;> simp

/-! ### The shared decoder -/

variable {ε : Type} {illegal : Byte → ε} {read : Nat → Except ε Byte}

/-- A failing opcode read is the decoder's answer. -/
theorem decodeFrom_opcode_error {e : ε} (h : read 0 = .error e) : decodeFrom illegal read = .error e := by
  simp [decodeFrom, h, bind, Except.bind]

/-- An opcode without a row is the decoder's answer, whatever the other reads give. -/
theorem decodeFrom_illegal {op : Byte} (h : read 0 = .ok op) (hl : lookup op = none) :
    decodeFrom illegal read = .error (illegal op) := by
  simp [decodeFrom, h, hl, bind, Except.bind]

/-- The first operand's failing read is the answer, when the row counts one. -/
theorem decodeFrom_first_error {op : Byte} {row : OpcodeRow} {e : ε} (h : read 0 = .ok op) (hl : lookup op = some row)
    (hn : 1 ≤ row.operands) (h₁ : read 1 = .error e) : decodeFrom illegal read = .error e := by
  simp [decodeFrom, h, hl, hn, h₁, bind, Except.bind]

/-- The second operand's failing read is the answer, when the row counts two. -/
theorem decodeFrom_second_error {op a : Byte} {row : OpcodeRow} {e : ε} (h : read 0 = .ok op) (hl : lookup op = some row)
    (hn : row.operands = 2) (h₁ : read 1 = .ok a) (h₂ : read 2 = .error e) : decodeFrom illegal read = .error e := by
  simp [decodeFrom, h, hl, hn, h₁, h₂, bind, Except.bind]

/-- The decoder answers an instruction exactly when the reads give its encoding: it reads the opcode and the operand bytes
the table counts, and no other. -/
theorem decodeFrom_ok_iff (i : Instr) :
    decodeFrom illegal read = .ok i ↔ ∀ k v, (encode i)[k]? = some v → read k = .ok v := by
  constructor
  · intro h
    cases h₀ : read 0 with
    | error e => rw [decodeFrom_opcode_error h₀] at h; cases h
    | ok op =>
      cases hl : lookup op with
      | none => rw [decodeFrom_illegal h₀ hl] at h; cases h
      | some row =>
        obtain ⟨hm, rfl⟩ := lookup_cases hl
        have henc := encode_build row hm
        have hle := row_operands_le row hm
        simp only [decodeFrom, h₀, hl, bind, Except.bind] at h
        obtain hn | hn | hn : row.operands = 0 ∨ row.operands = 1 ∨ row.operands = 2 := by omega
        · simp only [hn] at h
          cases h
          intro k v hk
          rw [henc, hn] at hk
          match k, hk with
          | 0, hk => simpa [h₀] using hk
        · simp only [hn, Nat.le_refl, if_true] at h
          cases h₁ : read 1 with
          | error e => rw [h₁] at h; cases h
          | ok a =>
            rw [h₁] at h
            cases h
            intro k v hk
            rw [henc, hn] at hk
            match k, hk with
            | 0, hk => simpa [h₀] using hk
            | 1, hk => simpa [h₁] using hk
        · simp only [hn, Nat.one_le_ofNat, if_true] at h
          cases h₁ : read 1 with
          | error e => rw [h₁] at h; cases h
          | ok a =>
            cases h₂ : read 2 with
            | error e => rw [h₁, h₂] at h; cases h
            | ok b =>
              rw [h₁, h₂] at h
              cases h
              intro k v hk
              rw [henc, hn] at hk
              match k, hk with
              | 0, hk => simpa [h₀] using hk
              | 1, hk => simpa [h₁] using hk
              | 2, hk => simpa [h₂] using hk
  · intro h
    obtain ⟨row, a, b, hm, rfl, henc, ha, hb⟩ := encode_row i
    have hle := row_operands_le row hm
    rw [henc] at h
    have h₀ : read 0 = .ok row.opcode := h 0 _ (by simp)
    simp only [decodeFrom, h₀, lookup_opcode row hm, bind, Except.bind]
    obtain hn | hn | hn : row.operands = 0 ∨ row.operands = 1 ∨ row.operands = 2 := by omega
    · simp [hn, ha hn, hb (by omega)]
    · have h₁ : read 1 = .ok a := h 1 _ (by simp [hn])
      simp [hn, h₁, hb (by omega)]
    · have h₁ : read 1 = .ok a := h 1 _ (by simp [hn])
      have h₂ : read 2 = .ok b := h 2 _ (by simp [hn])
      simp [hn, h₁, h₂]

end Sys2Proof
end

