-- ==== Sys2Proof/Laws/Memory.lean ====
section
/-! SUPPORT. The memory list: a read after a write, and the canonical form, which every operation keeps. -/

namespace Sys2Proof.Machine

/-- Listing an entry at its place changes the cell it names and no other, when no entry names it already. -/
theorem Memory.cell_insert (m : Memory) (a b : Nat) (v : Byte) (h : ∀ c ∈ m, c.1 ≠ a) :
    (Memory.insert a v m).cell b = if a = b then v else m.cell b := by
  induction m with
  | nil => simp [Memory.insert, Memory.cell]
  | cons c m ih =>
    obtain ⟨k, w⟩ := c
    have hk : k ≠ a := h (k, w) (by simp)
    have ih := ih (fun c hc => h c (by simp [hc]))
    simp only [Memory.insert]
    split
    · simp [Memory.cell]
    · simp only [Memory.cell, ih]
      by_cases hb : k = b
      · subst hb; simp [hk.symm]
      · simp [hb]

/-- Dropping every entry of a cell leaves it the fill, and no other cell different. -/
theorem Memory.cell_filter (m : Memory) (a b : Nat) :
    Memory.cell (m.filter (fun c => c.1 ≠ a)) b = if a = b then Config.memFill else m.cell b := by
  induction m with
  | nil => simp [Memory.cell]
  | cons c m ih =>
    obtain ⟨k, w⟩ := c
    by_cases hk : k = a
    · subst hk
      simp only [ne_eq, not_true_eq_false, decide_false, Bool.false_eq_true, not_false_eq_true, List.filter_cons_of_neg, ih,
        Memory.cell]
      split <;> rfl
    · rw [List.filter_cons_of_pos (by simpa using hk)]
      simp only [Memory.cell, ih]
      by_cases hb : k = b
      · subst hb; simp [Ne.symm hk]
      · simp [hb]

/-- A write is seen by a read of that cell, and by no other. -/
theorem Memory.cell_put (m : Memory) (a b : Nat) (v : Byte) :
    (m.put a v).cell b = if a = b then v else m.cell b := by
  simp only [Memory.put]
  split
  · next h => rw [Memory.cell_filter, h]
  · rw [Memory.cell_insert _ _ _ _ (by simp), Memory.cell_filter]
    split <;> rfl

/-- Every entry of an insertion is the new one or an old one. -/
theorem Memory.mem_insert (m : Memory) (a : Nat) (v : Byte) (c : Host.Cell) :
    c ∈ Memory.insert a v m ↔ c = (a, v) ∨ c ∈ m := by
  induction m with
  | nil => simp [Memory.insert]
  | cons d m ih =>
    obtain ⟨k, w⟩ := d
    simp only [Memory.insert]
    split
    · simp
    · simp only [List.mem_cons, ih]; tauto

/-- Insertion keeps addresses strictly rising. -/
theorem Memory.insert_rising (m : Memory) (a : Nat) (v : Byte) (h : ∀ c ∈ m, c.1 ≠ a)
    (hm : m.Pairwise (fun c d => c.1 < d.1)) : (Memory.insert a v m).Pairwise (fun c d => c.1 < d.1) := by
  induction m with
  | nil => simp [Memory.insert]
  | cons d m ih =>
    obtain ⟨k, w⟩ := d
    have hk : k ≠ a := h (k, w) (by simp)
    rw [List.pairwise_cons] at hm
    simp only [Memory.insert]
    split
    · next hlt =>
      rw [List.pairwise_cons]
      refine ⟨fun c hc => ?_, List.pairwise_cons.2 hm⟩
      rcases List.mem_cons.1 hc with rfl | hc
      · exact hlt
      · exact Nat.lt_trans hlt (hm.1 c hc)
    · next hlt =>
      rw [List.pairwise_cons]
      refine ⟨fun c hc => ?_, ih (fun c hc => h c (by simp [hc])) hm.2⟩
      rcases (Memory.mem_insert m a v c).1 hc with rfl | hc
      · show k < a
        omega
      · exact hm.1 c hc

/-- A write to a cell of the array keeps the canonical form. -/
theorem Memory.put_wf (m : Memory) (a : Nat) (v : Byte) (ha : a < Config.memSize) (hm : m.wf) : (m.put a v).wf := by
  have hf : Memory.wf (m.filter (fun c => c.1 ≠ a)) :=
    ⟨hm.1.filter _, fun c hc => hm.2 c (List.mem_filter.1 hc).1⟩
  simp only [Memory.put]
  split
  · exact hf
  · next hv =>
    refine ⟨Memory.insert_rising _ _ _ (by simp) hf.1, fun c hc => ?_⟩
    rcases (Memory.mem_insert _ a v c).1 hc with rfl | hc
    · exact ⟨ha, hv⟩
    · exact hf.2 c hc

/-- The empty memory is in canonical form. -/
theorem Memory.wf_nil : Memory.wf [] := ⟨List.Pairwise.nil, by simp⟩

/-- A cell no entry names reads as the fill. -/
theorem Memory.cell_of_not_listed (m : Memory) (a : Nat) (h : ∀ c ∈ m, c.1 ≠ a) : m.cell a = Config.memFill := by
  induction m with
  | nil => rfl
  | cons d m ih =>
    obtain ⟨k, w⟩ := d
    have hk : k ≠ a := h (k, w) (by simp)
    simp only [Memory.cell, if_neg hk]
    exact ih (fun c hc => h c (by simp [hc]))

/-- The form of a tail of a canonical memory. -/
theorem Memory.wf_tail {c : Host.Cell} {m : Memory} (h : Memory.wf (c :: m)) : Memory.wf m :=
  ⟨(List.pairwise_cons.1 h.1).2, fun d hd => h.2 d (by simp [hd])⟩

end Sys2Proof.Machine
end

