-- ==== Sys2Proof/Laws/State.lean ====
section
/-! SUPPORT. One lemma per field of State per update, so that no proof unfolds a record update. -/

namespace Sys2Proof.Machine

variable (s : State) (r q : Fin 8) (v : Byte) (n : Nat) (e : CoreError) (b : Bool) (a : Nat)

/-! ### A register write -/

@[simp] theorem State.setX_pc : (s.setX r v).pc = s.pc := rfl
@[simp] theorem State.setX_equal : (s.setX r v).equal = s.equal := rfl
@[simp] theorem State.setX_mem : (s.setX r v).mem = s.mem := rfl
@[simp] theorem State.setX_run : (s.setX r v).run = s.run := rfl
@[simp] theorem State.setX_err : (s.setX r v).err = s.err := rfl
@[simp] theorem State.setX_out : (s.setX r v).out = s.out := rfl
@[simp] theorem State.setX_cell : (s.setX r v).cell a = s.cell a := rfl

/-- A register write is seen by a read of that register, and by no other. -/
theorem State.x_setX : (s.setX r v).x q = if r = q then v else s.x q := by
  simp [State.x, State.setX, Vector.getElem_set, Fin.ext_iff]

@[simp] theorem State.x_setX_self : (s.setX r v).x r = v := by simp [State.x_setX]

@[simp] theorem State.x_setX_of_ne (h : r ≠ q) : (s.setX r v).x q = s.x q := by simp [State.x_setX, h]

/-! ### The PC updates -/

@[simp] theorem State.advance_pc : (s.advance n).pc = s.pc + BitVec.ofNat 9 n := rfl
@[simp] theorem State.advance_regs : (s.advance n).regs = s.regs := rfl
@[simp] theorem State.advance_x : (s.advance n).x r = s.x r := rfl
@[simp] theorem State.advance_equal : (s.advance n).equal = s.equal := rfl
@[simp] theorem State.advance_mem : (s.advance n).mem = s.mem := rfl
@[simp] theorem State.advance_cell : (s.advance n).cell a = s.cell a := rfl
@[simp] theorem State.advance_run : (s.advance n).run = s.run := rfl
@[simp] theorem State.advance_err : (s.advance n).err = s.err := rfl
@[simp] theorem State.advance_out : (s.advance n).out = s.out := rfl

@[simp] theorem State.jump_pc : (s.jump v).pc = v.setWidth 9 := rfl
@[simp] theorem State.jump_regs : (s.jump v).regs = s.regs := rfl
@[simp] theorem State.jump_x : (s.jump v).x r = s.x r := rfl
@[simp] theorem State.jump_equal : (s.jump v).equal = s.equal := rfl
@[simp] theorem State.jump_mem : (s.jump v).mem = s.mem := rfl
@[simp] theorem State.jump_cell : (s.jump v).cell a = s.cell a := rfl
@[simp] theorem State.jump_run : (s.jump v).run = s.run := rfl
@[simp] theorem State.jump_err : (s.jump v).err = s.err := rfl
@[simp] theorem State.jump_out : (s.jump v).out = s.out := rfl

/-! ### The flag, the output, the run state, the fault entry -/

@[simp] theorem State.setEqual_equal : (s.setEqual b).equal = b := rfl
@[simp] theorem State.setEqual_pc : (s.setEqual b).pc = s.pc := rfl
@[simp] theorem State.setEqual_regs : (s.setEqual b).regs = s.regs := rfl
@[simp] theorem State.setEqual_x : (s.setEqual b).x r = s.x r := rfl
@[simp] theorem State.setEqual_mem : (s.setEqual b).mem = s.mem := rfl
@[simp] theorem State.setEqual_cell : (s.setEqual b).cell a = s.cell a := rfl
@[simp] theorem State.setEqual_run : (s.setEqual b).run = s.run := rfl
@[simp] theorem State.setEqual_err : (s.setEqual b).err = s.err := rfl
@[simp] theorem State.setEqual_out : (s.setEqual b).out = s.out := rfl

@[simp] theorem State.emit_out : (s.emit v).out = s.out ++ [v] := rfl
@[simp] theorem State.emit_pc : (s.emit v).pc = s.pc := rfl
@[simp] theorem State.emit_regs : (s.emit v).regs = s.regs := rfl
@[simp] theorem State.emit_x : (s.emit v).x r = s.x r := rfl
@[simp] theorem State.emit_equal : (s.emit v).equal = s.equal := rfl
@[simp] theorem State.emit_mem : (s.emit v).mem = s.mem := rfl
@[simp] theorem State.emit_cell : (s.emit v).cell a = s.cell a := rfl
@[simp] theorem State.emit_run : (s.emit v).run = s.run := rfl
@[simp] theorem State.emit_err : (s.emit v).err = s.err := rfl

@[simp] theorem State.halt_run : s.halt.run = .halted := rfl
@[simp] theorem State.halt_err : s.halt.err = s.err := rfl
@[simp] theorem State.halt_pc : s.halt.pc = s.pc := rfl
@[simp] theorem State.halt_regs : s.halt.regs = s.regs := rfl
@[simp] theorem State.halt_x : s.halt.x r = s.x r := rfl
@[simp] theorem State.halt_equal : s.halt.equal = s.equal := rfl
@[simp] theorem State.halt_mem : s.halt.mem = s.mem := rfl
@[simp] theorem State.halt_cell : s.halt.cell a = s.cell a := rfl
@[simp] theorem State.halt_out : s.halt.out = s.out := rfl

@[simp] theorem State.raised_run : (s.raised e).run = .halted := rfl
@[simp] theorem State.raised_err : (s.raised e).err = some e := rfl
@[simp] theorem State.raised_pc : (s.raised e).pc = s.pc := rfl
@[simp] theorem State.raised_regs : (s.raised e).regs = s.regs := rfl
@[simp] theorem State.raised_x : (s.raised e).x r = s.x r := rfl
@[simp] theorem State.raised_equal : (s.raised e).equal = s.equal := rfl
@[simp] theorem State.raised_mem : (s.raised e).mem = s.mem := rfl
@[simp] theorem State.raised_cell : (s.raised e).cell a = s.cell a := rfl
@[simp] theorem State.raised_out : (s.raised e).out = s.out := rfl

/-! ### The stack pointer, register 7 -/

theorem State.sp_eq : s.sp = s.x 7 := rfl
theorem State.decSp_eq : s.decSp = s.setX 7 (s.x 7 - 1) := rfl
theorem State.incSp_eq : s.incSp = s.setX 7 (s.x 7 + 1) := rfl

end Sys2Proof.Machine
end

