-- ==== Sys2Proof/Laws/Ops.lean ====
section
/-! SUPPORT. For each shared operation, everything it can do, said once. -/

namespace Sys2Proof.Machine

/-! ### Completing an instruction -/

/-- An instruction that made no failing check keeps its writes. -/
@[simp] theorem commit_ok (s t : State) : commit s (.ok t) = .next t := rfl

/-- An instruction that failed a check raises it, from the state it began in. -/
@[simp] theorem commit_error (s : State) (e : CoreError) : commit s (.error e) = .next (s.raised e) := rfl

/-- Completing an instruction always gives a next state: its effect, or its fault. -/
theorem commit_cases {s t : State} {effect : Except CoreError State} (h : commit s effect = .next t) :
    effect = .ok t ∨ ∃ e, effect = .error e ∧ t = s.raised e := by
  cases effect with
  | ok u => left; simpa [commit] using h
  | error e => right; exact ⟨e, rfl, by simpa [commit] using h.symm⟩

/-- Completing an instruction is never a fault or a refusal. -/
theorem commit_next (s : State) (effect : Except CoreError State) : ∃ t, commit s effect = .next t := by
  cases effect <;> exact ⟨_, rfl⟩

/-- The first failing check ends the rest. -/
@[simp] theorem except_error_bind {ε α β : Type} (e : ε) (f : α → Except ε β) :
    ((.error e : Except ε α) >>= f) = .error e := rfl

/-- A passed check hands its value on. -/
@[simp] theorem except_ok_bind {ε α β : Type} (v : α) (f : α → Except ε β) :
    ((.ok v : Except ε α) >>= f) = f v := rfl

/-! ### Memory access -/

theorem memRead_ok (s : State) {a : Nat} (h : a < 256) : memRead s a = .ok (s.cell a) := by
  simp [memRead, Config.memSize, h]

theorem memRead_error (s : State) {a : Nat} (h : 256 ≤ a) : memRead s a = .error (.outOfBounds a) := by
  simp [memRead, Config.memSize, Nat.not_lt.2 h]

theorem memWrite_ok (s : State) {a : Nat} (v : Byte) (h : a < 256) :
    memWrite s a v = .ok { s with mem := s.mem.put a v } := by
  simp [memWrite, Config.memSize, h]

theorem memWrite_error (s : State) {a : Nat} (v : Byte) (h : 256 ≤ a) :
    memWrite s a v = .error (.outOfBounds a) := by
  simp [memWrite, Config.memSize, Nat.not_lt.2 h]

/-- A read at an 8-bit address never fails. -/
@[simp] theorem memRead_byte (s : State) (a : Byte) : memRead s a.toNat = .ok (s.cell a.toNat) := memRead_ok s a.isLt

/-- A write at an 8-bit address never fails. -/
@[simp] theorem memWrite_byte (s : State) (a v : Byte) :
    memWrite s a.toNat v = .ok { s with mem := s.mem.put a.toNat v } := memWrite_ok s v a.isLt

/-- What a write leaves in each cell. -/
theorem cell_with_put (s : State) (a b : Nat) (v : Byte) :
    State.cell { s with mem := s.mem.put a v } b = if a = b then v else s.cell b := Memory.cell_put s.mem a b v

@[simp] theorem x_with_mem (s : State) (m : Memory) (r : Fin 8) : State.x { s with mem := m } r = s.x r := rfl

/-! ### Register access -/

theorem checkReg_ok {i : Byte} (h : i.toNat < 8) : checkReg i = .ok ⟨i.toNat, h⟩ := by simp [checkReg, h]

theorem checkReg_error {i : Byte} (h : 8 ≤ i.toNat) : checkReg i = .error (.invalidRegister i) := by
  simp [checkReg, Nat.not_lt.2 h]

/-- The index check passes and names the register, or fails and names the operand byte. -/
theorem checkReg_cases (i : Byte) :
    (∃ h : i.toNat < 8, checkReg i = .ok ⟨i.toNat, h⟩) ∨ (8 ≤ i.toNat ∧ checkReg i = .error (.invalidRegister i)) := by
  by_cases h : i.toNat < 8
  · exact .inl ⟨h, checkReg_ok h⟩
  · exact .inr ⟨by omega, checkReg_error (by omega)⟩

theorem getReg_ok (s : State) {i : Byte} (h : i.toNat < 8) : getReg s i = .ok (s.x ⟨i.toNat, h⟩) := by
  simp [getReg, checkReg_ok h]

theorem getReg_error (s : State) {i : Byte} (h : 8 ≤ i.toNat) : getReg s i = .error (.invalidRegister i) := by
  simp [getReg, checkReg_error h]

theorem setReg_ok (s : State) {i : Byte} (v : Byte) (h : i.toNat < 8) :
    setReg s i v = .ok (s.setX ⟨i.toNat, h⟩ v) := by
  simp [setReg, checkReg_ok h]

theorem setReg_error (s : State) {i : Byte} (v : Byte) (h : 8 ≤ i.toNat) :
    setReg s i v = .error (.invalidRegister i) := by
  simp [setReg, checkReg_error h]

/-! ### The ALU's interface -/

/-- With both registers valid, the interface writes the function's value into the destination, or fails as the function does. -/
theorem aluApply_eq (op : AluOp) {d e : Byte} (s : State) (hd : d.toNat < 8) (he : e.toNat < 8) :
    aluApply op d e s = (alu op (s.x ⟨d.toNat, hd⟩) (s.x ⟨e.toNat, he⟩)).map (fun v => s.setX ⟨d.toNat, hd⟩ v) := by
  simp only [aluApply, getReg_ok s hd, getReg_ok s he, except_ok_bind]
  cases alu op (s.x ⟨d.toNat, hd⟩) (s.x ⟨e.toNat, he⟩) with
  | error e => rfl
  | ok v => simp [setReg_ok s v hd, Except.map]

theorem aluApply_bad_dest (op : AluOp) {d : Byte} (e : Byte) (s : State) (hd : 8 ≤ d.toNat) :
    aluApply op d e s = .error (.invalidRegister d) := by
  simp [aluApply, getReg_error s hd]

theorem aluApply_bad_source (op : AluOp) {d e : Byte} (s : State) (hd : d.toNat < 8) (he : 8 ≤ e.toNat) :
    aluApply op d e s = .error (.invalidRegister e) := by
  simp [aluApply, getReg_ok s hd, getReg_error s he]

end Sys2Proof.Machine
end

