-- ==== Sys2Proof/Laws/Exec.lean ====
section
/-! SUPPORT. The instructions' equations: for each, the state it gives on valid operands and the fault it raises otherwise. Later
proofs cite these and unfold no meaning. -/

namespace Sys2Proof.Machine

variable {a b : Byte} (s : State)

/-! ### ADD and MUL -/

theorem exec_add (ha : a.toNat < 8) (hb : b.toNat < 8) : exec (.add a b) s =
    .next ((s.setX ⟨a.toNat, ha⟩ (s.x ⟨a.toNat, ha⟩ + s.x ⟨b.toNat, hb⟩)).advance 3) := by
  simp [exec, execAdd, aluApply_eq, ha, hb, alu, Except.map]

theorem exec_add_bad_a (b : Byte) (ha : 8 ≤ a.toNat) :
    exec (.add a b) s = .next (s.raised (.invalidRegister a)) := by
  simp [exec, execAdd, aluApply_bad_dest, ha]

theorem exec_add_bad_b (ha : a.toNat < 8) (hb : 8 ≤ b.toNat) :
    exec (.add a b) s = .next (s.raised (.invalidRegister b)) := by
  simp [exec, execAdd, aluApply_bad_source, ha, hb]

theorem exec_mul (ha : a.toNat < 8) (hb : b.toNat < 8) : exec (.mul a b) s =
    .next ((s.setX ⟨a.toNat, ha⟩ (s.x ⟨a.toNat, ha⟩ * s.x ⟨b.toNat, hb⟩)).advance 3) := by
  simp [exec, execMul, aluApply_eq, ha, hb, alu, Except.map]

theorem exec_mul_bad_a (b : Byte) (ha : 8 ≤ a.toNat) :
    exec (.mul a b) s = .next (s.raised (.invalidRegister a)) := by
  simp [exec, execMul, aluApply_bad_dest, ha]

theorem exec_mul_bad_b (ha : a.toNat < 8) (hb : 8 ≤ b.toNat) :
    exec (.mul a b) s = .next (s.raised (.invalidRegister b)) := by
  simp [exec, execMul, aluApply_bad_source, ha, hb]

/-! ### LDI and PRN -/

theorem exec_ldi (imm : Byte) (ha : a.toNat < 8) :
    exec (.ldi a imm) s = .next ((s.setX ⟨a.toNat, ha⟩ imm).advance 3) := by
  simp [exec, execLdi, setReg_ok, ha]

theorem exec_ldi_bad (imm : Byte) (ha : 8 ≤ a.toNat) :
    exec (.ldi a imm) s = .next (s.raised (.invalidRegister a)) := by
  simp [exec, execLdi, setReg_error, ha]

theorem exec_prn (ha : a.toNat < 8) :
    exec (.prn a) s = .next ((s.emit (s.x ⟨a.toNat, ha⟩)).advance 2) := by
  simp [exec, execPrn, getReg_ok, ha]

theorem exec_prn_bad (ha : 8 ≤ a.toNat) : exec (.prn a) s = .next (s.raised (.invalidRegister a)) := by
  simp [exec, execPrn, getReg_error, ha]

/-! ### PUSH and POP -/

/-- The state with SP decremented and a byte stored at the new SP: what PUSH and CALL share. -/
def State.pushed (v : Byte) : State :=
  { s.setX 7 (s.x 7 - 1) with mem := s.mem.put (s.x 7 - 1).toNat v }

@[simp] theorem State.pushed_pc (v : Byte) : (s.pushed v).pc = s.pc := rfl
@[simp] theorem State.pushed_equal (v : Byte) : (s.pushed v).equal = s.equal := rfl
@[simp] theorem State.pushed_mem (v : Byte) : (s.pushed v).mem = s.mem.put (s.x 7 - 1).toNat v := rfl
@[simp] theorem State.pushed_run (v : Byte) : (s.pushed v).run = s.run := rfl
@[simp] theorem State.pushed_err (v : Byte) : (s.pushed v).err = s.err := rfl
@[simp] theorem State.pushed_out (v : Byte) : (s.pushed v).out = s.out := rfl

theorem State.pushed_x (v : Byte) (r : Fin 8) : (s.pushed v).x r = if 7 = r then s.x 7 - 1 else s.x r :=
  State.x_setX s 7 r _

/-- An operand's register read after SP is written: SP's new value when the operand is register 7 (`43_stack.md` R112). -/
theorem State.x_setX_sp (v : Byte) (ha : a.toNat < 8) :
    (s.setX 7 v).x ⟨a.toNat, ha⟩ = if a.toNat = 7 then v else s.x ⟨a.toNat, ha⟩ := by
  rw [State.x_setX]
  exact if_congr (by simp [Fin.ext_iff, eq_comm]) rfl rfl

theorem State.pushed_cell (v : Byte) (w : Nat) :
    (s.pushed v).cell w = if (s.x 7 - 1).toNat = w then v else s.cell w := Memory.cell_put _ _ _ _

theorem exec_push (ha : a.toNat < 8) : exec (.push a) s =
    .next ((s.pushed ((s.setX 7 (s.x 7 - 1)).x ⟨a.toNat, ha⟩)).advance 2) := by
  simp only [exec, execPush, checkReg_ok ha, except_ok_bind, State.decSp_eq, State.sp_eq, State.x_setX_self,
    memWrite_byte]
  rfl

theorem exec_push_bad (ha : 8 ≤ a.toNat) : exec (.push a) s = .next (s.raised (.invalidRegister a)) := by
  simp [exec, execPush, checkReg_error, ha]

theorem exec_pop (ha : a.toNat < 8) : exec (.pop a) s =
    .next ((s.setX ⟨a.toNat, ha⟩ (s.cell (s.x 7).toNat)).incSp.advance 2) := by
  simp [exec, execPop, checkReg_ok, ha, State.sp_eq]

theorem exec_pop_bad (ha : 8 ≤ a.toNat) : exec (.pop a) s = .next (s.raised (.invalidRegister a)) := by
  simp [exec, execPop, checkReg_error, ha]

/-! ### CALL and RET -/

theorem exec_call (ha : a.toNat < 8) (hpc : s.pc.toNat + 2 < 256) : exec (.call a) s =
    .next ((s.pushed (BitVec.ofNat 8 (s.pc.toNat + 2))).jump ((s.setX 7 (s.x 7 - 1)).x ⟨a.toNat, ha⟩)) := by
  simp only [exec, execCall, checkReg_ok ha, returnAddress, Config.memSize, hpc, if_true, except_ok_bind, State.sp_eq,
    memWrite_byte]
  rfl

theorem exec_call_bad (ha : 8 ≤ a.toNat) : exec (.call a) s = .next (s.raised (.invalidRegister a)) := by
  simp [exec, execCall, checkReg_error, ha]

theorem exec_call_no_return (ha : a.toNat < 8) (hpc : 256 ≤ s.pc.toNat + 2) :
    exec (.call a) s = .next (s.raised (.outOfBounds (s.pc.toNat + 2))) := by
  simp [exec, execCall, checkReg_ok, ha, returnAddress, Config.memSize, Nat.not_lt.2 hpc]

theorem exec_ret : exec .ret s = .next (s.incSp.jump (s.cell (s.x 7).toNat)) := by
  simp [exec, execRet, State.sp_eq]

/-! ### CMP and the branches -/

theorem exec_cmp (ha : a.toNat < 8) (hb : b.toNat < 8) : exec (.cmp a b) s =
    .next ((s.setEqual (equalOf (s.x ⟨a.toNat, ha⟩) (s.x ⟨b.toNat, hb⟩))).advance 3) := by
  simp [exec, execCmp, getReg_ok, ha, hb]

theorem exec_cmp_bad_a (b : Byte) (ha : 8 ≤ a.toNat) :
    exec (.cmp a b) s = .next (s.raised (.invalidRegister a)) := by
  simp [exec, execCmp, getReg_error, ha]

theorem exec_cmp_bad_b (ha : a.toNat < 8) (hb : 8 ≤ b.toNat) :
    exec (.cmp a b) s = .next (s.raised (.invalidRegister b)) := by
  simp [exec, execCmp, getReg_ok, getReg_error, ha, hb]

theorem branchTo_ok (ha : a.toNat < 8) : branchTo a s = .ok (s.jump (s.x ⟨a.toNat, ha⟩)) := by
  simp [branchTo, getReg_ok, ha]

theorem branchTo_error (ha : 8 ≤ a.toNat) : branchTo a s = .error (.invalidRegister a) := by
  simp [branchTo, getReg_error, ha]

theorem exec_jmp (ha : a.toNat < 8) : exec (.jmp a) s = .next (s.jump (s.x ⟨a.toNat, ha⟩)) := by
  simp [exec, execJmp, branchTo_ok, ha]

theorem exec_jmp_bad (ha : 8 ≤ a.toNat) : exec (.jmp a) s = .next (s.raised (.invalidRegister a)) := by
  simp [exec, execJmp, branchTo_error, ha]

theorem exec_jeq_taken (ha : a.toNat < 8) (he : s.equal = true) :
    exec (.jeq a) s = .next (s.jump (s.x ⟨a.toNat, ha⟩)) := by
  simp [exec, execJeq, branchTo_ok, ha, he]

theorem exec_jeq_bad (ha : 8 ≤ a.toNat) (he : s.equal = true) :
    exec (.jeq a) s = .next (s.raised (.invalidRegister a)) := by
  simp [exec, execJeq, branchTo_error, ha, he]

theorem exec_jeq_not_taken (he : s.equal = false) : exec (.jeq a) s = .next (s.advance 2) := by
  simp [exec, execJeq, he]

theorem exec_jne_taken (ha : a.toNat < 8) (he : s.equal = false) :
    exec (.jne a) s = .next (s.jump (s.x ⟨a.toNat, ha⟩)) := by
  simp [exec, execJne, branchTo_ok, ha, he]

theorem exec_jne_bad (ha : 8 ≤ a.toNat) (he : s.equal = false) :
    exec (.jne a) s = .next (s.raised (.invalidRegister a)) := by
  simp [exec, execJne, branchTo_error, ha, he]

theorem exec_jne_not_taken (he : s.equal = true) : exec (.jne a) s = .next (s.advance 2) := by
  simp [exec, execJne, he]

/-! ### HLT -/

theorem exec_hlt : exec .hlt s = .next s.halt := rfl

/-! ### Everything an instruction can do -/

/-- The state an instruction leaves when none of its checks fails, the checks being the hypotheses it lists. -/
def Completes (s t : State) : Instr → Prop
  | .add a b => ∃ (ha : a.toNat < 8) (hb : b.toNat < 8),
      t = (s.setX ⟨a.toNat, ha⟩ (s.x ⟨a.toNat, ha⟩ + s.x ⟨b.toNat, hb⟩)).advance 3
  | .mul a b => ∃ (ha : a.toNat < 8) (hb : b.toNat < 8),
      t = (s.setX ⟨a.toNat, ha⟩ (s.x ⟨a.toNat, ha⟩ * s.x ⟨b.toNat, hb⟩)).advance 3
  | .ldi a imm => ∃ ha : a.toNat < 8, t = (s.setX ⟨a.toNat, ha⟩ imm).advance 3
  | .prn a => ∃ ha : a.toNat < 8, t = (s.emit (s.x ⟨a.toNat, ha⟩)).advance 2
  | .push a => ∃ ha : a.toNat < 8, t = (s.pushed ((s.setX 7 (s.x 7 - 1)).x ⟨a.toNat, ha⟩)).advance 2
  | .pop a => ∃ ha : a.toNat < 8, t = (s.setX ⟨a.toNat, ha⟩ (s.cell (s.x 7).toNat)).incSp.advance 2
  | .call a => ∃ ha : a.toNat < 8, s.pc.toNat + 2 < 256 ∧
      t = (s.pushed (BitVec.ofNat 8 (s.pc.toNat + 2))).jump ((s.setX 7 (s.x 7 - 1)).x ⟨a.toNat, ha⟩)
  | .ret => t = s.incSp.jump (s.cell (s.x 7).toNat)
  | .cmp a b => ∃ (ha : a.toNat < 8) (hb : b.toNat < 8),
      t = (s.setEqual (equalOf (s.x ⟨a.toNat, ha⟩) (s.x ⟨b.toNat, hb⟩))).advance 3
  | .jmp a => ∃ ha : a.toNat < 8, t = s.jump (s.x ⟨a.toNat, ha⟩)
  | .jeq a => (s.equal = true ∧ ∃ ha : a.toNat < 8, t = s.jump (s.x ⟨a.toNat, ha⟩)) ∨
      (s.equal = false ∧ t = s.advance 2)
  | .jne a => (s.equal = false ∧ ∃ ha : a.toNat < 8, t = s.jump (s.x ⟨a.toNat, ha⟩)) ∨
      (s.equal = true ∧ t = s.advance 2)
  | .hlt => t = s.halt

/-- An instruction always gives a next state, and it is one of three: what it does when no check fails; the fault entry for a
register operand, 8 or more, that it accesses; CALL's fault entry for a return address beyond memory. -/
theorem exec_cases (i : Instr) (s : State) : ∃ t, exec i s = .next t ∧
    (Completes s t i ∨
     (∃ k ∈ i.registerOperands, 8 ≤ k.toNat ∧ t = s.raised (.invalidRegister k)) ∨
     (∃ a, i = .call a ∧ 256 ≤ s.pc.toNat + 2 ∧ t = s.raised (.outOfBounds (s.pc.toNat + 2)))) := by
  have byteCases : ∀ a : Byte, a.toNat < 8 ∨ 8 ≤ a.toNat := fun a => Nat.lt_or_ge _ _
  cases i with
  | add a b =>
    rcases byteCases a with ha | ha
    · rcases byteCases b with hb | hb
      · exact ⟨_, exec_add s ha hb, .inl ⟨ha, hb, rfl⟩⟩
      · exact ⟨_, exec_add_bad_b s ha hb, .inr (.inl ⟨b, by simp [Instr.registerOperands], hb, rfl⟩)⟩
    · exact ⟨_, exec_add_bad_a s b ha, .inr (.inl ⟨a, by simp [Instr.registerOperands], ha, rfl⟩)⟩
  | mul a b =>
    rcases byteCases a with ha | ha
    · rcases byteCases b with hb | hb
      · exact ⟨_, exec_mul s ha hb, .inl ⟨ha, hb, rfl⟩⟩
      · exact ⟨_, exec_mul_bad_b s ha hb, .inr (.inl ⟨b, by simp [Instr.registerOperands], hb, rfl⟩)⟩
    · exact ⟨_, exec_mul_bad_a s b ha, .inr (.inl ⟨a, by simp [Instr.registerOperands], ha, rfl⟩)⟩
  | cmp a b =>
    rcases byteCases a with ha | ha
    · rcases byteCases b with hb | hb
      · exact ⟨_, exec_cmp s ha hb, .inl ⟨ha, hb, rfl⟩⟩
      · exact ⟨_, exec_cmp_bad_b s ha hb, .inr (.inl ⟨b, by simp [Instr.registerOperands], hb, rfl⟩)⟩
    · exact ⟨_, exec_cmp_bad_a s b ha, .inr (.inl ⟨a, by simp [Instr.registerOperands], ha, rfl⟩)⟩
  | ldi a imm =>
    rcases byteCases a with ha | ha
    · exact ⟨_, exec_ldi s imm ha, .inl ⟨ha, rfl⟩⟩
    · exact ⟨_, exec_ldi_bad s imm ha, .inr (.inl ⟨a, by simp [Instr.registerOperands], ha, rfl⟩)⟩
  | prn a =>
    rcases byteCases a with ha | ha
    · exact ⟨_, exec_prn s ha, .inl ⟨ha, rfl⟩⟩
    · exact ⟨_, exec_prn_bad s ha, .inr (.inl ⟨a, by simp [Instr.registerOperands], ha, rfl⟩)⟩
  | push a =>
    rcases byteCases a with ha | ha
    · exact ⟨_, exec_push s ha, .inl ⟨ha, rfl⟩⟩
    · exact ⟨_, exec_push_bad s ha, .inr (.inl ⟨a, by simp [Instr.registerOperands], ha, rfl⟩)⟩
  | pop a =>
    rcases byteCases a with ha | ha
    · exact ⟨_, exec_pop s ha, .inl ⟨ha, rfl⟩⟩
    · exact ⟨_, exec_pop_bad s ha, .inr (.inl ⟨a, by simp [Instr.registerOperands], ha, rfl⟩)⟩
  | call a =>
    rcases byteCases a with ha | ha
    · rcases Nat.lt_or_ge (s.pc.toNat + 2) 256 with hp | hp
      · exact ⟨_, exec_call s ha hp, .inl ⟨ha, hp, rfl⟩⟩
      · exact ⟨_, exec_call_no_return s ha hp, .inr (.inr ⟨a, rfl, hp, rfl⟩)⟩
    · exact ⟨_, exec_call_bad s ha, .inr (.inl ⟨a, by simp [Instr.registerOperands], ha, rfl⟩)⟩
  | ret => exact ⟨_, exec_ret s, .inl rfl⟩
  | jmp a =>
    rcases byteCases a with ha | ha
    · exact ⟨_, exec_jmp s ha, .inl ⟨ha, rfl⟩⟩
    · exact ⟨_, exec_jmp_bad s ha, .inr (.inl ⟨a, by simp [Instr.registerOperands], ha, rfl⟩)⟩
  | jeq a =>
    cases he : s.equal with
    | false => exact ⟨_, exec_jeq_not_taken s he, .inl (.inr ⟨he, rfl⟩)⟩
    | true =>
      rcases byteCases a with ha | ha
      · exact ⟨_, exec_jeq_taken s ha he, .inl (.inl ⟨he, ha, rfl⟩)⟩
      · exact ⟨_, exec_jeq_bad s ha he, .inr (.inl ⟨a, by simp [Instr.registerOperands], ha, rfl⟩)⟩
  | jne a =>
    cases he : s.equal with
    | true => exact ⟨_, exec_jne_not_taken s he, .inl (.inr ⟨he, rfl⟩)⟩
    | false =>
      rcases byteCases a with ha | ha
      · exact ⟨_, exec_jne_taken s ha he, .inl (.inl ⟨he, ha, rfl⟩)⟩
      · exact ⟨_, exec_jne_bad s ha he, .inr (.inl ⟨a, by simp [Instr.registerOperands], ha, rfl⟩)⟩
  | hlt => exact ⟨_, exec_hlt s, .inl rfl⟩

end Sys2Proof.Machine
end

