-- ==== Sys2Proof/Laws/Step.lean ====
section
/-! SUPPORT. What a fetch and a step can do, said once. -/

namespace Sys2Proof.Machine

variable {s t : State}

/-- A fetch gives an instruction exactly when PC holds all of its bytes. -/
theorem fetchInstr_ok_iff (s : State) (i : Instr) :
    fetchInstr s = .ok i ↔ s.pc.toNat + (encode i).length ≤ 256 ∧ HoldsAt s s.pc.toNat (encode i) := by
  rw [fetchInstr, decodeFrom_ok_iff]
  constructor
  · intro h
    have fits : ∀ k, k < (encode i).length → s.pc.toNat + k < 256 := fun k hk => by
      by_contra hn
      have := h k _ (List.getElem?_eq_getElem hk)
      rw [memRead_error s (by omega)] at this
      cases this
    refine ⟨?_, fun k v hk => ?_⟩
    · obtain ⟨row, a, b, -, -, henc, -, -⟩ := encode_row i
      have hpos : 0 < (encode i).length := by rw [henc]; simp
      have := fits ((encode i).length - 1) (by omega)
      omega
    · have hlt := fits k (List.getElem?_eq_some_iff.1 hk).1
      have := h k v hk
      rw [memRead_ok s hlt] at this
      exact Except.ok.inj this
  · rintro ⟨hlen, hold⟩ k v hk
    have := (List.getElem?_eq_some_iff.1 hk).1
    rw [memRead_ok s (by omega), hold k v hk]

/-- A fetch sees a store at once: it is the fetch over the memory before, with the stored byte in its cell (`20_memory.md` R43). -/
theorem fetchInstr_of_stored {s t : State} {w : Nat} {v : Byte} (hw : w < 256)
    (hc : ∀ b, t.cell b = if w = b then v else s.cell b) :
    fetchInstr t = decodeFrom .illegalInstruction fun k =>
      if t.pc.toNat + k = w then .ok v else memRead s (t.pc.toNat + k) := by
  rw [fetchInstr]
  congr 1
  funext k
  split
  · next h => rw [h, memRead_ok t hw, hc, if_pos rfl]
  · next h => simp only [memRead, hc, if_neg (Ne.symm h)]

/-- The opcode fetch beyond memory. -/
theorem fetchInstr_beyond (h : 256 ≤ s.pc.toNat) : fetchInstr s = .error (.outOfBounds s.pc.toNat) :=
  decodeFrom_opcode_error (memRead_error s (by simpa using h))

/-- The dispatcher's rejection, which reads no operand. -/
theorem fetchInstr_illegal (h : s.pc.toNat < 256) (hl : lookup (s.cell s.pc.toNat) = none) :
    fetchInstr s = .error (.illegalInstruction (s.cell s.pc.toNat)) :=
  decodeFrom_illegal (memRead_ok s (by simpa using h)) hl

/-- An operand byte beyond memory: the first one missing is always at 256. -/
theorem fetchInstr_operand_beyond {row : OpcodeRow} (h : s.pc.toNat < 256) (hl : lookup (s.cell s.pc.toNat) = some row)
    (hn : 256 ≤ s.pc.toNat + row.operands) : fetchInstr s = .error (.outOfBounds 256) := by
  have h₀ : memRead s (s.pc.toNat + 0) = .ok (s.cell s.pc.toNat) := memRead_ok s (by simpa using h)
  have hle := row_operands_le row (lookup_cases hl).1
  by_cases h₁ : s.pc.toNat = 255
  · exact decodeFrom_first_error h₀ hl (by omega) (by rw [memRead_error s (by omega), h₁])
  · exact decodeFrom_second_error h₀ hl (by omega) (memRead_ok s (by omega)) (by
      rw [memRead_error s (by omega), show s.pc.toNat + 2 = 256 by omega])

/-- All bytes inside memory: the row's instruction. -/
theorem fetchInstr_row {row : OpcodeRow} (hl : lookup (s.cell s.pc.toNat) = some row)
    (hn : s.pc.toNat + row.operands < 256) :
    fetchInstr s = .ok (row.build (s.cell (s.pc.toNat + 1)) (s.cell (s.pc.toNat + 2))) := by
  obtain ⟨hm, hop⟩ := lookup_cases hl
  have henc := encode_build row hm (s.cell (s.pc.toNat + 1)) (s.cell (s.pc.toNat + 2))
  have hle := row_operands_le row hm
  refine (fetchInstr_ok_iff s _).2 ⟨by rw [henc]; simp; omega, fun k v hk => ?_⟩
  rw [henc, hop] at hk
  match k, hk with
  | 0, hk => simpa using hk
  | k + 1, hk =>
    simp only [List.getElem?_cons_succ, List.getElem?_take] at hk
    split at hk
    · match k, hk with
      | 0, hk => simpa using hk
      | 1, hk => simpa using hk
    · cases hk

/-- A fetch fails in one of three ways, in this order: the opcode beyond memory, an illegal opcode, an operand beyond memory. -/
theorem fetchInstr_error_cases {e : CoreError} (h : fetchInstr s = .error e) :
    (256 ≤ s.pc.toNat ∧ e = .outOfBounds s.pc.toNat) ∨
    (s.pc.toNat < 256 ∧ lookup (s.cell s.pc.toNat) = none ∧ e = .illegalInstruction (s.cell s.pc.toNat)) ∨
    (s.pc.toNat < 256 ∧ e = .outOfBounds 256) := by
  by_cases h₀ : s.pc.toNat < 256
  · cases hl : lookup (s.cell s.pc.toNat) with
    | none =>
      rw [fetchInstr_illegal h₀ hl] at h
      exact .inr (.inl ⟨h₀, rfl, (Except.error.inj h).symm⟩)
    | some row =>
      by_cases hn : s.pc.toNat + row.operands < 256
      · rw [fetchInstr_row hl hn] at h; cases h
      · rw [fetchInstr_operand_beyond h₀ hl (by omega)] at h
        exact .inr (.inr ⟨h₀, (Except.error.inj h).symm⟩)
  · rw [fetchInstr_beyond (by omega)] at h
    exact .inl ⟨by omega, (Except.error.inj h).symm⟩

/-- A Running machine that has fetched an instruction runs its handler. -/
theorem step_of_fetch {i : Instr} (hr : s.run = .running) (h : fetchInstr s = .ok i) : step s = exec i s := by
  simp [step, hr, h]

/-- A Running machine whose fetch fails raises that fault. -/
theorem step_of_fetch_error {e : CoreError} (hr : s.run = .running) (h : fetchInstr s = .error e) :
    step s = .next (s.raised e) := by
  simp [step, hr, h]

/-- A Running machine that has an instruction at PC runs its handler. -/
theorem step_of_fetches {i : Instr} (h : Fetches s i) : step s = exec i s :=
  step_of_fetch h.1 ((fetchInstr_ok_iff s i).2 h.2)

/-- A Halted machine takes no step. -/
theorem step_halted (h : s.run = .halted) : step s = .fault .machineHalted := by simp [step, h]

/-- Everything a step can do: the machine was Running, and it ran the handler of the instruction at PC, or raised the fault its
fetch met. -/
theorem step_cases (h : step s = .next t) :
    s.run = .running ∧
    ((∃ i, Fetches s i ∧ exec i s = .next t) ∨ ∃ e, fetchInstr s = .error e ∧ t = s.raised e) := by
  cases hr : s.run with
  | halted => rw [step_halted hr] at h; cases h
  | running =>
    refine ⟨rfl, ?_⟩
    cases hf : fetchInstr s with
    | error e =>
      rw [step_of_fetch_error hr hf] at h
      exact .inr ⟨e, rfl, by cases h; rfl⟩
    | ok i =>
      rw [step_of_fetch hr hf] at h
      exact .inl ⟨i, ⟨hr, (fetchInstr_ok_iff s i).1 hf⟩, h⟩

end Sys2Proof.Machine
end

