-- ==== Sys2Proof/Laws/Frame.lean ====
section
/-! SUPPORT. What every completing instruction leaves unchanged, what every step therefore is, and that every operation that builds a
memory keeps its canonical form. -/

namespace Sys2Proof.Machine

variable {s t : State} {i : Instr}

/-! ### Frames of a completing instruction -/

/-- An instruction that completes writes no error report. -/
theorem completes_err (h : Completes s t i) : t.err = s.err := by
  cases i <;> simp only [Completes] at h <;>
    grind [State.advance_err, State.jump_err, State.setX_err, State.pushed_err, State.incSp_eq, State.emit_err,
      State.setEqual_err, State.halt_err]

/-- Only HLT writes RUN when it completes. -/
theorem completes_run (h : Completes s t i) : t.run = if i = .hlt then .halted else s.run := by
  cases i <;> simp only [Completes] at h <;>
    grind [State.advance_run, State.jump_run, State.setX_run, State.pushed_run, State.incSp_eq, State.emit_run,
      State.setEqual_run, State.halt_run]

/-- A completing instruction leaves memory as it was, or puts one byte at the address below SP. -/
theorem completes_mem (h : Completes s t i) : t.mem = s.mem ∨ ∃ v, t.mem = s.mem.put (s.x 7 - 1).toNat v := by
  cases i <;> simp only [Completes] at h <;>
    grind [State.advance_mem, State.jump_mem, State.setX_mem, State.incSp_eq, State.emit_mem, State.setEqual_mem,
      State.halt_mem, State.pushed_mem]

/-- The state an instruction completes with is the one its execution gives. -/
theorem exec_of_completes (h : Completes s t i) : exec i s = .next t := by
  cases i <;> simp only [Completes] at h
  case add => obtain ⟨ha, hb, rfl⟩ := h; exact exec_add s ha hb
  case mul => obtain ⟨ha, hb, rfl⟩ := h; exact exec_mul s ha hb
  case ldi => obtain ⟨ha, rfl⟩ := h; exact exec_ldi s _ ha
  case prn => obtain ⟨ha, rfl⟩ := h; exact exec_prn s ha
  case push => obtain ⟨ha, rfl⟩ := h; exact exec_push s ha
  case pop => obtain ⟨ha, rfl⟩ := h; exact exec_pop s ha
  case call => obtain ⟨ha, hp, rfl⟩ := h; exact exec_call s ha hp
  case ret => subst h; exact exec_ret s
  case cmp => obtain ⟨ha, hb, rfl⟩ := h; exact exec_cmp s ha hb
  case jmp => obtain ⟨ha, rfl⟩ := h; exact exec_jmp s ha
  case jeq =>
    rcases h with ⟨he, ha, rfl⟩ | ⟨he, rfl⟩
    · exact exec_jeq_taken s ha he
    · exact exec_jeq_not_taken s he
  case jne =>
    rcases h with ⟨he, ha, rfl⟩ | ⟨he, rfl⟩
    · exact exec_jne_taken s ha he
    · exact exec_jne_not_taken s he
  case hlt => subst h; exact exec_hlt s

/-- A next state of an instruction is its completion or a fault entry. -/
theorem completes_or_raised (h : exec i s = .next t) : Completes s t i ∨ ∃ e, t = s.raised e := by
  obtain ⟨u, hu, hc⟩ := exec_cases i s
  rw [h] at hu
  cases hu
  rcases hc with hc | ⟨k, -, -, hc⟩ | ⟨a, -, -, hc⟩
  · exact .inl hc
  · exact .inr ⟨_, hc⟩
  · exact .inr ⟨_, hc⟩

/-- A next state of a step is the completion of the instruction at PC or a fault entry. -/
theorem step_completes_or_raised (h : step s = .next t) :
    s.run = .running ∧ ((∃ i, Fetches s i ∧ Completes s t i) ∨ ∃ e, t = s.raised e) := by
  obtain ⟨hr, ⟨i, hf, hx⟩ | ⟨e, -, he⟩⟩ := step_cases h
  · rcases completes_or_raised hx with hc | hc
    · exact ⟨hr, .inl ⟨i, hf, hc⟩⟩
    · exact ⟨hr, .inr hc⟩
  · exact ⟨hr, .inr ⟨e, he⟩⟩

/-- At most one instruction stands at PC. -/
theorem fetches_unique {j : Instr} (hi : Fetches s i) (hj : Fetches s j) : i = j := by
  have h := (fetchInstr_ok_iff s i).2 hi.2
  rw [(fetchInstr_ok_iff s j).2 hj.2] at h
  cases h
  rfl

/-! ### The canonical form of memory -/

theorem memWrite_wf {a : Nat} {v : Byte} (h : memWrite s a v = .ok t) (hm : s.mem.wf) : t.mem.wf := by
  rcases Nat.lt_or_ge a 256 with ha | ha
  · rw [memWrite_ok s v ha] at h
    cases h
    exact Memory.put_wf _ _ _ ha hm
  · rw [memWrite_error s v ha] at h
    cases h

theorem placeBytes_wf (bytes : List Byte) : ∀ (a : Nat) (m : Memory), m.wf → (placeBytes bytes a m).wf := by
  induction bytes with
  | nil => exact fun _ _ h => h
  | cons v bytes ih =>
    intro a m h
    refine ih _ _ ?_
    split
    · next ha => exact Memory.put_wf _ _ _ ha h
    · exact h

theorem loadImage_wf (image : List Byte) : ∀ (a : Nat) (s t : State), loadImage image a s = .ok t → s.mem.wf → t.mem.wf := by
  induction image with
  | nil => intro a s t h hm; cases h; exact hm
  | cons v image ih =>
    intro a s t h hm
    cases hw : memWrite s a v with
    | error e => simp [loadImage, hw] at h
    | ok s' =>
      simp only [loadImage, hw, except_ok_bind] at h
      exact ih _ _ _ h (memWrite_wf hw hm)

/-- The canonical form holds at reset. -/
theorem reset_mem_wf : State.reset.mem.wf := Memory.wf_nil

/-- An instruction keeps the canonical form. -/
theorem exec_mem_wf (h : exec i s = .next t) (hm : s.mem.wf) : t.mem.wf := by
  rcases completes_or_raised h with hc | ⟨e, rfl⟩
  · rcases completes_mem hc with h | ⟨v, h⟩ <;> rw [h]
    · exact hm
    · exact Memory.put_wf _ _ _ (BitVec.isLt _) hm
  · exact hm

/-! ### The dispatcher's bytes -/

/-- The legal opcodes are those with a row, whose operand count is the byte's two high bits. -/
theorem legal_iff_lookup (op : Byte) :
    op ∈ legalOpcodes ↔ ∃ row, lookup op = some row ∧ row.operands = op.toNat / 64 := by
  constructor
  · intro h
    simp only [legalOpcodes, List.mem_cons, List.not_mem_nil, or_false] at h
    rcases h with h | h | h | h | h | h | h | h | h | h | h | h | h <;> subst h <;> exact ⟨_, rfl, rfl⟩
  · rintro ⟨row, h, -⟩
    obtain ⟨hm, rfl⟩ := lookup_cases h
    simp only [opcodeTable, List.mem_cons, List.not_mem_nil, or_false] at hm
    rcases hm with h | h | h | h | h | h | h | h | h | h | h | h | h <;> subst h <;> decide

end Sys2Proof.Machine
end

