-- ==== Sys2Proof/Laws/PerInstr.lean ====
section
/-! SUPPORT. Statements about every instruction as syntax, one lemma per constructor. -/

namespace Sys2Proof.Laws.Shape

/-- An instruction's bytes are one of the thirteen opcodes and at most two operand bytes, its register operands among these, first
things first (`30_encoding.md` R50, R51, R55). -/
def Statement (i : Instr) : Prop :=
  ∃ op operands, encode i = op :: operands ∧ op ∈ Machine.legalOpcodes ∧ operands.length ≤ 2 ∧
    i.registerOperands <+: operands

theorem add (a b : Byte) : Statement (.add a b) := ⟨0xA0, [a, b], rfl, by decide, by simp, by simp [Instr.registerOperands]⟩
theorem mul (a b : Byte) : Statement (.mul a b) := ⟨0xA2, [a, b], rfl, by decide, by simp, by simp [Instr.registerOperands]⟩
theorem ldi (a imm : Byte) : Statement (.ldi a imm) :=
  ⟨0x82, [a, imm], rfl, by decide, by simp, by simp [Instr.registerOperands]⟩
theorem prn (a : Byte) : Statement (.prn a) := ⟨0x47, [a], rfl, by decide, by simp, by simp [Instr.registerOperands]⟩
theorem push (a : Byte) : Statement (.push a) := ⟨0x45, [a], rfl, by decide, by simp, by simp [Instr.registerOperands]⟩
theorem pop (a : Byte) : Statement (.pop a) := ⟨0x46, [a], rfl, by decide, by simp, by simp [Instr.registerOperands]⟩
theorem call (a : Byte) : Statement (.call a) := ⟨0x50, [a], rfl, by decide, by simp, by simp [Instr.registerOperands]⟩
theorem ret : Statement .ret := ⟨0x11, [], rfl, by decide, by simp, by simp [Instr.registerOperands]⟩
theorem cmp (a b : Byte) : Statement (.cmp a b) := ⟨0xA7, [a, b], rfl, by decide, by simp, by simp [Instr.registerOperands]⟩
theorem jmp (a : Byte) : Statement (.jmp a) := ⟨0x54, [a], rfl, by decide, by simp, by simp [Instr.registerOperands]⟩
theorem jeq (a : Byte) : Statement (.jeq a) := ⟨0x55, [a], rfl, by decide, by simp, by simp [Instr.registerOperands]⟩
theorem jne (a : Byte) : Statement (.jne a) := ⟨0x56, [a], rfl, by decide, by simp, by simp [Instr.registerOperands]⟩
theorem hlt : Statement .hlt := ⟨0x01, [], rfl, by decide, by simp, by simp [Instr.registerOperands]⟩

end Sys2Proof.Laws.Shape
end

