-- ==== Sys2Proof/Tests/Slice0.lean ====
section
/-! SUPPORT. Tests of single steps against the vectors of `95_test_vectors.md` (each cited by its id), decoding of words written out
from `30_encoding.md` R55, the smoke test of the well-formedness check, and the witnesses that the statements' hypotheses can be met. -/

namespace Sys2Proof.Tests

open Sys2Proof.Machine

/-! ### Helpers -/

/-- The reset state with bytes placed at an address and PC there. -/
def placed (a : Nat) (bytes : List Byte) : State :=
  { State.reset with mem := placeBytes bytes a [], pc := BitVec.ofNat 9 a }

/-- A register set. -/
def withX (s : State) (r : Fin 8) (v : Byte) : State := s.setX r v

/-- A cell set. -/
def withCell (s : State) (a : Nat) (v : Byte) : State := { s with mem := s.mem.put a v }

/-- The flag set. -/
def withE (s : State) (e : Bool) : State := { s with equal := e }

/-- What `f` shows of the state after one step. -/
def after {α : Type} (s : State) (f : State → α) : Option α :=
  match step s with
  | .next t => some (f t)
  | _ => none

/-- The state after one step, or `s` when there is none. -/
def stepped (s : State) : State := (after s id).getD s

/-! ### Decoding: one word of every row, written out from its bits (`30_encoding.md` R55) -/

theorem test_decode_add : decode [0b10100000, 0b00000011, 0b11111111] = .ok (.add 3 255) := by decide
theorem test_decode_mul : decode [0b10100010, 0b00000001, 0b00000111] = .ok (.mul 1 7) := by decide
theorem test_decode_ldi : decode [0b10000010, 0b00000000, 0b10000001] = .ok (.ldi 0 129) := by decide
theorem test_decode_prn : decode [0b01000111, 0b00000110] = .ok (.prn 6) := by decide
theorem test_decode_push : decode [0b01000101, 0b00000111] = .ok (.push 7) := by decide
theorem test_decode_pop : decode [0b01000110, 0b00000010] = .ok (.pop 2) := by decide
theorem test_decode_call : decode [0b01010000, 0b00000100] = .ok (.call 4) := by decide
theorem test_decode_ret : decode [0b00010001] = .ok .ret := by decide
theorem test_decode_cmp : decode [0b10100111, 0b00000010, 0b00000100] = .ok (.cmp 2 4) := by decide
theorem test_decode_jmp : decode [0b01010100, 0b00000101] = .ok (.jmp 5) := by decide
theorem test_decode_jeq : decode [0b01010101, 0b00001001] = .ok (.jeq 9) := by decide
theorem test_decode_jne : decode [0b01010110, 0b00000101] = .ok (.jne 5) := by decide
theorem test_decode_hlt : decode [0b00000001] = .ok .hlt := by decide

/-- T-FD1, T-FD3 to T-FD7: near misses of the table. -/
theorem test_decode_rejects_by_name :
    [0x00, 0x02, 0xC0, 0x10, 0xA3, 0x83, 0xA1].map (fun op : Byte => decode [op, 0, 1]) =
    [0x00, 0x02, 0xC0, 0x10, 0xA3, 0x83, 0xA1].map (fun op : Byte => .error (.illegalOpcode op)) := by decide

theorem test_decode_truncated : decode [0xA0, 0] = .error (.truncated 2) ∧ decode [] = .error (.truncated 0) := by decide

/-- The host's numbering: bit 0 is the first byte's, and bits above the count are 0. -/
theorem test_decodeTableWord : decodeTableWord 24 0x0C0182 = some (.ldi 1 12) ∧ decodeTableWord 8 0xA0 = some (.add 0 0) ∧
    decodeTableWord 8 0xFFFF01 = some .hlt ∧ decodeTableWord 8 0x00 = none := by decide

/-- A table word placed by the host is what the next step runs, from reset. -/
theorem test_withFetchWord : after (State.reset.withFetchWord 24 0x0A0082) (fun t => (t.x 0, t.pc)) = some (0x0A, 3) := by decide

/-! ### The well-formedness check refuses an ill-formed term of each register operand -/

theorem test_illFormed : [Instr.add 8 0, .add 0 8, .mul 8 0, .mul 0 8, .ldi 8 0, .prn 8, .push 8, .pop 8, .call 8, .cmp 8 0,
    .cmp 0 8, .jmp 8, .jeq 8, .jne 255].all (fun i => ¬ i.WellFormed) := by decide

theorem test_wellFormed : [Instr.add 7 7, .mul 7 0, .ldi 7 255, .prn 7, .push 7, .pop 7, .call 7, .ret, .cmp 7 7, .jmp 7, .jeq 7,
    .jne 7, .hlt].all (fun i => i.WellFormed) := by decide

/-! ### One step of each instruction, from `95_test_vectors.md` section 2 -/

/-- T-AL1 -/
theorem test_add_wraps : after (withX (withX (placed 0 [0xA0, 0, 1]) 0 0xC8) 1 0x64) (fun t => (t.x 0, t.x 1, t.pc)) =
    some (0x2C, 0x64, 3) := by decide
/-- T-AL13 -/
theorem test_add_bad_source : after (withX (placed 0 [0xA0, 0, 9]) 0 1) (fun t => (t.x 0, t.run, t.err, t.pc)) =
    some (1, .halted, some (.invalidRegister 9), 0) := by decide
/-- T-AL8 -/
theorem test_mul_keeps_low_byte : after (withX (withX (placed 0 [0xA2, 0, 1]) 0 0xFF) 1 0xFF) (fun t => (t.x 0, t.pc)) =
    some (0x01, 3) := by decide
/-- T-AL14 -/
theorem test_mul_bad_source : after (withX (placed 0 [0xA2, 1, 0xFF]) 1 3) (fun t => (t.x 1, t.err)) =
    some (3, some (.invalidRegister 255)) := by decide
/-- T-LP2 -/
theorem test_ldi_sets_sp : after (placed 0 [0x82, 7, 0x80]) (fun t => (t.x 7, t.pc)) = some (0x80, 3) := by decide
/-- T-LP5 and its next step -/
theorem test_ldi_runs_off_memory : after (placed 0xFD [0x82, 0, 0x2A]) (fun t => (t.x 0, t.pc, (stepped t).err, (stepped t).pc)) =
    some (0x2A, 0x100, some (.outOfBounds 256), 0x100) := by decide
/-- T-LP8 -/
theorem test_prn_unsigned : after (withX (placed 0 [0x47, 0]) 0 0xFF) (fun t => (t.out, t.out.map decimal, t.pc)) =
    some ([255], ["255"], 2) := by decide
/-- T-LP11 -/
theorem test_prn_bad : after (placed 0 [0x47, 0x0A]) (fun t => (t.out, t.err)) = some ([], some (.invalidRegister 10)) := by decide
/-- T-ST3 -/
theorem test_push_wraps_sp : after (withX (withX (placed 0 [0x45, 0]) 7 0) 0 0xAB) (fun t => (t.x 7, t.cell 0xFF, t.pc)) =
    some (0xFF, 0xAB, 2) := by decide
/-- T-ST5 -/
theorem test_push_sp_itself : after (placed 0 [0x45, 7]) (fun t => (t.x 7, t.cell 0xF3)) = some (0xF3, 0xF3) := by decide
/-- T-ST2 -/
theorem test_pop_does_not_clear : after (withCell (withX (placed 0 [0x46, 2]) 7 0xF2) 0xF2 6)
    (fun t => (t.x 2, t.x 7, t.cell 0xF2, t.pc)) = some (6, 0xF3, 6, 2) := by decide
/-- T-ST6 -/
theorem test_pop_sp_itself : after (withCell (placed 0 [0x46, 7]) 0xF4 0x20) (fun t => (t.x 7, t.pc)) = some (0x21, 2) := by decide
/-- T-SU3 -/
theorem test_call_through_sp : after (placed 0 [0x50, 7]) (fun t => (t.cell 0xF3, t.x 7, t.pc)) = some (2, 0xF3, 0xF3) := by decide
/-- T-SU4 -/
theorem test_call_at_254 : after (withX (placed 0xFE [0x50, 0]) 0 0x10) (fun t => (t.x 7, t.cell 0xF3, t.pc, t.err)) =
    some (0xF4, 0, 0xFE, some (.outOfBounds 256)) := by decide
/-- T-SU2 -/
theorem test_ret : after (withCell (withX (placed 0x0F [0x11]) 7 0xF3) 0xF3 8) (fun t => (t.pc, t.x 7)) = some (8, 0xF4) := by decide
/-- T-SU8 -/
theorem test_ret_at_255 : after (withCell (placed 0xFF [0x11]) 0xF4 0x33) (fun t => (t.pc, t.x 7)) = some (0x33, 0xF5) := by decide
/-- T-CF1 -/
theorem test_cmp_sets : after (withX (withX (placed 0 [0xA7, 0, 1]) 0 7) 1 7) (fun t => (t.equal, t.pc)) = some (true, 3) := by decide
/-- T-CF2 -/
theorem test_cmp_clears : after (withE (withX (withX (placed 0 [0xA7, 0, 1]) 0 7) 1 8) true) (fun t => (t.equal, t.pc)) =
    some (false, 3) := by decide
/-- T-CF5 -/
theorem test_jmp : after (withX (placed 0x30 [0x54, 5]) 5 0x12) (fun t => t.pc) = some 0x12 := by decide
/-- T-CF15 -/
theorem test_jmp_to_itself : after (withX (placed 0x50 [0x54, 0]) 0 0x50) (fun t => (t.pc, t.run)) = some (0x50, .running) := by decide
/-- T-CF6 -/
theorem test_jeq_taken : after (withE (withX (placed 0x20 [0x55, 3]) 3 0x40) true) (fun t => t.pc) = some 0x40 := by decide
/-- T-CF11, T-CF12 -/
theorem test_jeq_bad_register : after (placed 0 [0x55, 9]) (fun t => (t.pc, t.err)) = some (2, none) ∧
    after (withE (placed 0 [0x55, 9]) true) (fun t => t.err) = some (some (.invalidRegister 9)) := by decide
/-- T-CF8 -/
theorem test_jne_taken : after (withX (placed 0x1B [0x56, 5]) 5 0x12) (fun t => t.pc) = some 0x12 := by decide
/-- T-CF17 and its next step -/
theorem test_jne_falls_off_memory : after (withE (placed 0xFE [0x56, 0]) true) (fun t => (t.pc, (stepped t).err)) =
    some (0x100, some (.outOfBounds 256)) := by decide
/-- T-HL2 -/
theorem test_hlt_at_255 : after (placed 0xFF [0x01]) (fun t => (t.run, t.err, t.pc)) = some (.halted, none, 0xFF) := by decide
/-- T-HL3 -/
theorem test_no_step_after_hlt : after (stepped (placed 0 [0x01])) (fun t => t.pc) = none := by decide

/-! ### Fetch and fault order (`95_test_vectors.md` section 2.7) -/

/-- T-FD1 -/
theorem test_empty_image_is_illegal : after State.reset (fun t => (t.run, t.err, t.pc)) =
    some (.halted, some (.illegalInstruction 0x00), 0) := by decide
/-- T-FD2 -/
theorem test_illegal_at_255 : after (placed 0xFF [0xFF]) (fun t => t.err) = some (some (.illegalInstruction 0xFF)) := by decide
/-- T-LP7 -/
theorem test_operand_fetch_before_register_check : after (placed 0xFE [0x82, 9]) (fun t => t.err) =
    some (some (.outOfBounds 256)) := by decide
/-- T-SU13 -/
theorem test_register_check_before_return_address : after (placed 0xFE [0x50, 9]) (fun t => t.err) =
    some (some (.invalidRegister 9)) := by decide
/-- T-CF16 -/
theorem test_untaken_branch_operand_is_fetched : after (placed 0xFF [0x55]) (fun t => t.err) =
    some (some (.outOfBounds 256)) := by decide

/-! ### The ALU's function, the error codes, the image -/

/-- T-AL20, T-AL25, T-AL27, T-AL28 -/
theorem test_alu : alu .add 0xC8 0x64 = .ok 0x2C ∧ alu .mul 0xFF 0x02 = .ok 0xFE ∧ alu .sub 0x03 0x05 = .ok 0xFE ∧
    alu .sub 0x00 0x01 = .ok 0xFF ∧ alu .xor 0x03 0x05 = .error (.unsupportedOperation .xor) := by decide
/-- `60_exceptions.md` R150, R156 -/
theorem test_errCode : [none, some (.outOfBounds 256), some (.invalidRegister 8), some (.unsupportedOperation .div),
    some (.illegalInstruction 0)].map errCode = [0, 1, 2, 3, 4] := by decide
/-- `20_memory.md` R45: the image at address 0, the rest zero, and canonical (the zero byte is not listed). -/
theorem test_construct : (State.construct [0x82, 0x00, 0x0A]).map (fun s => (s.cell 0, s.cell 2, s.cell 3, s.mem)) =
    .ok (0x82, 0x0A, 0x00, [(0, 0x82), (2, 0x0A)]) := by decide

/-! ### Witnesses: the hypotheses of each statement can be met -/

/-- A machine whose PC holds an instruction. -/
theorem fetches_of_fetchInstr {s : State} {i : Instr} (hr : s.run = .running) (hf : fetchInstr s = .ok i) : Fetches s i :=
  ⟨hr, (fetchInstr_ok_iff s i).1 hf⟩

theorem witness_DecodesExactlyTheEncodedPrefix : encode (.ldi 7 255) <+: [0x82, 7, 255, 1] ∧ ¬ encode .hlt <+: [0x11] := by decide

theorem witness_OpcodesOutsideTheTableAreIllegal : (0xA1 : Byte) ∉ legalOpcodes ∧ (0xA7 : Byte) ∈ legalOpcodes ∧
    (placed 255 [0xFF]).run = .running ∧ (placed 255 [0xFF]).pc.toNat < 256 ∧
    (placed 255 [0xFF]).cell (placed 255 [0xFF]).pc.toNat ∉ legalOpcodes := by decide

theorem witness_HighOpcodeBitsCountTheOperands : (0xC0 : Byte).toNat / 64 = 3 ∧ (0xFF : Byte).toNat / 64 = 3 := by decide

/-- Both sides of the bound, for the read and for the write. -/
theorem witness_MemReadIsBoundChecked : memRead (withCell State.reset 255 7) 255 = .ok 7 ∧
    memRead State.reset 256 = .error (.outOfBounds 256) := by decide

theorem witness_MemWriteChangesExactlyOneCell : (memWrite State.reset 255 7).map (fun t => t.mem) = .ok [(255, 7)] ∧
    memWrite State.reset 256 7 = .error (.outOfBounds 256) ∧ State.reset.mem.wf := by decide

theorem witness_CanonicalMemoriesWithEqualCellsAreEqual : Memory.wf [(0, 5), (255, 9)] ∧
    ¬ Memory.wf [(255, 9), (0, 5)] ∧ ¬ Memory.wf [(0, 0)] := by decide

/-- A full image, and one byte more. -/
theorem witness_ConstructPlacesTheImageAndResetsTheRest : (List.replicate 256 (0x11 : Byte)).length ≤ 256 ∧
    256 < (List.replicate 257 (0x11 : Byte)).length :=
  ⟨by rw [List.length_replicate], by rw [List.length_replicate]; decide⟩

theorem witness_RegisterAccessIsIndexChecked : (7 : Byte).toNat < 8 ∧ 8 ≤ (8 : Byte).toNat ∧ 8 ≤ (255 : Byte).toNat := by decide

theorem witness_AluApplyWritesOnlyItsDestination : alu .sub (State.reset.x 7) (State.reset.x 0) = .ok 0xF4 ∧
    (aluApply .sub 7 0 State.reset).map (fun t => t.x 7) = .ok 0xF4 ∧
    aluApply .div 0 1 State.reset = .error (.unsupportedOperation .div) ∧
    aluApply .div 8 9 State.reset = .error (.invalidRegister 8) ∧
    aluApply .div 7 8 State.reset = .error (.invalidRegister 8) := by decide

theorem witness_AluComputesModulo256 : AluOp.div ≠ .add ∧ AluOp.div ≠ .sub ∧ AluOp.div ≠ .mul := by decide

/-- The encoding clauses (`EncodedAs`), for a three-byte instruction: it fits at 253, misses its last byte at 254, and PC is beyond
memory at 256. -/
theorem witness_EncodedAs_fits : Fetches (placed 253 [0xA0, 7, 0]) (.add 7 0) :=
  fetches_of_fetchInstr (by decide) (by decide)

theorem witness_EncodedAs_misses_an_operand : (placed 254 [0xA0, 7]).run = .running ∧ (placed 254 [0xA0, 7]).pc.toNat < 256 ∧
    256 < (placed 254 [0xA0, 7]).pc.toNat + [0xA0, 7, 0].length ∧
    [0xA0, 7, 0].head? = some ((placed 254 [0xA0, 7]).cell (placed 254 [0xA0, 7]).pc.toNat) := by decide

theorem witness_EncodedAs_beyond : (placed 256 []).run = .running ∧ 256 ≤ (placed 256 []).pc.toNat := by decide

/-- The one- and two-byte instructions fit at the last addresses. -/
theorem witness_EncodedAs_short : Fetches (placed 255 [0x11]) .ret ∧ Fetches (placed 255 [0x01]) .hlt ∧
    Fetches (placed 254 [0x45, 7]) (.push 7) ∧ Fetches (placed 254 [0x55, 9]) (.jeq 9) :=
  ⟨fetches_of_fetchInstr (by decide) (by decide), fetches_of_fetchInstr (by decide) (by decide),
   fetches_of_fetchInstr (by decide) (by decide), fetches_of_fetchInstr (by decide) (by decide)⟩

/-! The instruction statements: the encoding clause at the last address it fits, and each operand clause at its boundary. -/

/-- Both operands valid, the first invalid, only the second invalid. -/
theorem witness_AddStoresTheSum : Fetches (placed 253 [0xA0, 7, 0]) (.add 7 0) ∧
    Fetches (placed 253 [0xA0, 8, 9]) (.add 8 9) ∧
    Fetches (placed 253 [0xA0, 7, 8]) (.add 7 8) ∧
    (7 : Byte).toNat < 8 ∧ 8 ≤ (8 : Byte).toNat :=
  ⟨fetches_of_fetchInstr (by decide) (by decide), fetches_of_fetchInstr (by decide) (by decide), fetches_of_fetchInstr (by decide) (by decide), by decide⟩

/-- Both operands valid, the first invalid, only the second invalid. -/
theorem witness_MulStoresTheLowByteOfTheProduct : Fetches (placed 253 [0xA2, 7, 0]) (.mul 7 0) ∧
    Fetches (placed 253 [0xA2, 8, 9]) (.mul 8 9) ∧
    Fetches (placed 253 [0xA2, 7, 8]) (.mul 7 8) ∧
    (7 : Byte).toNat < 8 ∧ 8 ≤ (8 : Byte).toNat :=
  ⟨fetches_of_fetchInstr (by decide) (by decide), fetches_of_fetchInstr (by decide) (by decide), fetches_of_fetchInstr (by decide) (by decide), by decide⟩

/-- Both operands valid, the first invalid, only the second invalid. -/
theorem witness_CmpSetsTheFlagToEquality : Fetches (placed 253 [0xA7, 7, 0]) (.cmp 7 0) ∧
    Fetches (placed 253 [0xA7, 8, 9]) (.cmp 8 9) ∧
    Fetches (placed 253 [0xA7, 7, 8]) (.cmp 7 8) ∧
    (7 : Byte).toNat < 8 ∧ 8 ≤ (8 : Byte).toNat :=
  ⟨fetches_of_fetchInstr (by decide) (by decide), fetches_of_fetchInstr (by decide) (by decide), fetches_of_fetchInstr (by decide) (by decide), by decide⟩

/-- A valid and an invalid register. -/
theorem witness_LdiLoadsTheImmediate : Fetches (placed 253 [0x82, 7, 255]) (.ldi 7 255) ∧
    Fetches (placed 253 [0x82, 8, 0]) (.ldi 8 0) ∧
    (7 : Byte).toNat < 8 ∧ 8 ≤ (8 : Byte).toNat :=
  ⟨fetches_of_fetchInstr (by decide) (by decide), fetches_of_fetchInstr (by decide) (by decide), by decide⟩

/-- Register 7, another valid register, an invalid one. -/
theorem witness_PrnAppendsTheRegister : Fetches (placed 254 [0x47, 7]) (.prn 7) ∧
    Fetches (placed 254 [0x47, 6]) (.prn 6) ∧
    Fetches (placed 254 [0x47, 8]) (.prn 8) ∧
    (7 : Byte).toNat = 7 ∧ (6 : Byte).toNat < 8 ∧ (6 : Byte).toNat ≠ 7 ∧ 8 ≤ (8 : Byte).toNat :=
  ⟨fetches_of_fetchInstr (by decide) (by decide), fetches_of_fetchInstr (by decide) (by decide), fetches_of_fetchInstr (by decide) (by decide), by decide⟩

/-- Register 7, another valid register, an invalid one. -/
theorem witness_PushStoresBelowTheStackPointer : Fetches (placed 254 [0x45, 7]) (.push 7) ∧
    Fetches (placed 254 [0x45, 6]) (.push 6) ∧
    Fetches (placed 254 [0x45, 8]) (.push 8) ∧
    (7 : Byte).toNat = 7 ∧ (6 : Byte).toNat < 8 ∧ (6 : Byte).toNat ≠ 7 ∧ 8 ≤ (8 : Byte).toNat :=
  ⟨fetches_of_fetchInstr (by decide) (by decide), fetches_of_fetchInstr (by decide) (by decide), fetches_of_fetchInstr (by decide) (by decide), by decide⟩

/-- Register 7, another valid register, an invalid one. -/
theorem witness_PopLoadsFromTheStackPointer : Fetches (placed 254 [0x46, 7]) (.pop 7) ∧
    Fetches (placed 254 [0x46, 6]) (.pop 6) ∧
    Fetches (placed 254 [0x46, 8]) (.pop 8) ∧
    (7 : Byte).toNat = 7 ∧ (6 : Byte).toNat < 8 ∧ (6 : Byte).toNat ≠ 7 ∧ 8 ≤ (8 : Byte).toNat :=
  ⟨fetches_of_fetchInstr (by decide) (by decide), fetches_of_fetchInstr (by decide) (by decide), fetches_of_fetchInstr (by decide) (by decide), by decide⟩

/-- Register 7, another valid register, an invalid one. -/
theorem witness_JmpGoesToTheRegister : Fetches (placed 254 [0x54, 7]) (.jmp 7) ∧
    Fetches (placed 254 [0x54, 6]) (.jmp 6) ∧
    Fetches (placed 254 [0x54, 8]) (.jmp 8) ∧
    (7 : Byte).toNat = 7 ∧ (6 : Byte).toNat < 8 ∧ (6 : Byte).toNat ≠ 7 ∧ 8 ≤ (8 : Byte).toNat :=
  ⟨fetches_of_fetchInstr (by decide) (by decide), fetches_of_fetchInstr (by decide) (by decide), fetches_of_fetchInstr (by decide) (by decide), by decide⟩

/-- CALL at 253, the last address it completes at; at 254; with an invalid register at 254. -/
theorem witness_CallPushesTheReturnAddressAndJumps : Fetches (placed 253 [0x50, 7]) (.call 7) ∧
    Fetches (placed 254 [0x50, 7]) (.call 7) ∧
    Fetches (placed 254 [0x50, 8]) (.call 8) ∧
    (placed 253 [0x50, 7]).pc.toNat + 2 < 256 ∧ 256 ≤ (placed 254 [0x50, 7]).pc.toNat + 2 ∧ 8 ≤ (8 : Byte).toNat :=
  ⟨fetches_of_fetchInstr (by decide) (by decide), fetches_of_fetchInstr (by decide) (by decide), fetches_of_fetchInstr (by decide) (by decide), by decide⟩

/-- RET at the last address. -/
theorem witness_RetJumpsToTheStackedByte : Fetches (placed 255 [0x11]) (.ret) ∧
    (placed 255 [0x11]).pc.toNat + 1 ≤ 256 :=
  ⟨fetches_of_fetchInstr (by decide) (by decide), by decide⟩

/-- HLT at the last address. -/
theorem witness_HltHaltsAndWritesNothingElse : Fetches (placed 255 [0x01]) (.hlt) ∧
    (placed 255 [0x01]).pc.toNat + 1 ≤ 256 :=
  ⟨fetches_of_fetchInstr (by decide) (by decide), by decide⟩

/-- Both values of the flag, with a valid and an invalid operand. -/
theorem witness_JeqBranchesWhenEqual : Fetches (placed 254 [0x55, 7]) (.jeq 7) ∧
    Fetches (withE (placed 254 [0x55, 8]) true) (.jeq 8) ∧
    (placed 254 [0x55, 7]).equal = false ∧ (withE (placed 254 [0x55, 8]) true).equal = true ∧ (7 : Byte).toNat < 8 ∧ 8 ≤ (8 : Byte).toNat :=
  ⟨fetches_of_fetchInstr (by decide) (by decide), fetches_of_fetchInstr (by decide) (by decide), by decide⟩

/-- Both values of the flag, with a valid and an invalid operand. -/
theorem witness_JneBranchesWhenNotEqual : Fetches (placed 254 [0x56, 7]) (.jne 7) ∧
    Fetches (withE (placed 254 [0x56, 8]) true) (.jne 8) ∧
    (placed 254 [0x56, 7]).equal = false ∧ (withE (placed 254 [0x56, 8]) true).equal = true ∧ (7 : Byte).toNat < 8 ∧ 8 ≤ (8 : Byte).toNat :=
  ⟨fetches_of_fetchInstr (by decide) (by decide), fetches_of_fetchInstr (by decide) (by decide), by decide⟩

theorem witness_StepRunsTheDecodedInstruction : (placed 253 [0x82, 0, 0x2A]).run = .running ∧
    decode ((List.range (256 - (placed 253 [0x82, 0, 0x2A]).pc.toNat)).map
      (fun k => (placed 253 [0x82, 0, 0x2A]).cell ((placed 253 [0x82, 0, 0x2A]).pc.toNat + k))) = .ok (.ldi 0 0x2A) := by decide

/-- The clauses of the fault order: opcode beyond memory, illegal opcode at 255, operand beyond memory at 254 and 255, all inside. -/
theorem witness_FaultsAreRaisedInTheOrderOfTheStep : 256 ≤ (placed 256 []).pc.toNat ∧
    (placed 255 [0xFF]).cell 255 ∉ legalOpcodes ∧
    (placed 254 [0xA7, 0]).cell 254 ∈ legalOpcodes ∧ 256 ≤ 254 + ((placed 254 [0xA7, 0]).cell 254).toNat / 64 ∧
    (placed 254 [0x45, 0]).cell 254 ∈ legalOpcodes ∧ 254 + ((placed 254 [0x45, 0]).cell 254).toNat / 64 < 256 ∧
    8 ≤ (8 : Byte).toNat ∧ Instr.call 8 ∈ [Instr.add 8 9, .mul 8 9, .cmp 8 9, .call 8] := by decide

theorem witness_IllegalOpcodeHaltsWithItsReport : (placed 255 [0x00]).run = .running ∧ (placed 255 [0x00]).pc.toNat < 256 ∧
    (placed 255 [0x00]).cell (placed 255 [0x00]).pc.toNat ∉ legalOpcodes := by decide

/-- The last and the first PC of the 9-bit range. -/
theorem witness_RunningMachineAlwaysSteps : (placed 511 []).run = .running ∧ (placed 0 []).run = .running := by decide

/-- A step from Running that halts by HLT, one that halts by a fault, one that goes on, and a Halted machine. -/
theorem witness_RunChangesOnlyByHltOrFault : after (placed 0 [0x01]) (fun t => t.run) = some .halted ∧
    after (placed 0 [0x02]) (fun t => t.run) = some .halted ∧ after (placed 0 [0x82, 0, 1]) (fun t => t.run) = some .running ∧
    (stepped (placed 0 [0x01])).run = .halted := by decide

theorem witness_StepKeepsTheInvariant : (placed 253 [0xA0, 7, 0]).Inv ∧ after (placed 253 [0xA0, 7, 0]) (fun t => t.pc) = some 256 :=
  ⟨⟨by decide, fun _ => rfl, fun h => absurd rfl h, by decide⟩, by decide⟩

theorem witness_RunsGoOnUntilHalted : (placed 254 [0x01]).Inv ∧ (placed 254 [0x01]).run = .running ∧
    (stepped (placed 254 [0x01])).run = .halted :=
  ⟨⟨by decide, fun _ => rfl, fun h => absurd rfl h, by decide⟩, by decide, by decide⟩

/-- A faulting step from a state without error report. -/
theorem witness_FaultingStepWritesNothing : (placed 0 [0x45, 8]).err = none ∧
    after (placed 0 [0x45, 8]) (fun t => decide (t.err ≠ none)) = some true := by decide

theorem witness_OnlyCmpWritesTheFlag :
    after (placed 0 [0xA7, 0, 1]) (fun t => decide (t.equal ≠ (placed 0 [0xA7, 0, 1]).equal)) = some true := by decide

/-- A step that prints, of SP's register at that, and one that does not. -/
theorem witness_OutGrowsOnlyByPrnAndIsNeverRead : Fetches (placed 0 [0x47, 7]) (.prn 7) ∧ (7 : Byte).toNat < 8 ∧
    after (placed 0 [0x47, 7]) (fun t => t.out) = some [0xF4] ∧ after (placed 0 [0x82, 7, 0]) (fun t => t.out) = some [] :=
  ⟨fetches_of_fetchInstr (by decide) (by decide), by decide, by decide, by decide⟩

/-- A PUSH and a CALL that change a cell, SP wrapping for the one. -/
theorem witness_OnlyPushAndCallWriteMemory :
    after (withX (placed 0 [0x45, 7]) 7 0) (fun t => decide (t.cell 255 ≠ (withX (placed 0 [0x45, 7]) 7 0).cell 255)) = some true ∧
    after (placed 0 [0x50, 0]) (fun t => decide (t.cell 0xF3 ≠ (placed 0 [0x50, 0]).cell 0xF3)) = some true := by decide

theorem witness_RegistersAreWrittenOnlyByTheirWriters :
    after (placed 0 [0x46, 5]) (fun t => decide (t.x 7 ≠ (placed 0 [0x46, 5]).x 7)) = some true ∧
    after (placed 0 [0x82, 5, 1]) (fun t => decide (t.x 5 ≠ (placed 0 [0x82, 5, 1]).x 5)) = some true := by decide

theorem witness_UnnamedRegisterIsInert : Fetches (placed 0 [0x45, 0]) (.push 0) ∧ (5 : Fin 8) ≠ 7 ∧
    (∀ a ∈ (Instr.push 0).registerOperands, a.toNat ≠ (5 : Fin 8).val) ∧ after (placed 0 [0x45, 0]) (fun t => t.x 5) = some 0 :=
  ⟨fetches_of_fetchInstr (by decide) (by decide), by decide, by decide, by decide⟩

theorem witness_NoStepReportsUnsupportedOperation : (placed 0 [0xA0, 0, 9]).Inv ∧
    after (placed 0 [0xA0, 0, 9]) (fun t => t.err) = some (some (.invalidRegister 9)) :=
  ⟨⟨by decide, fun _ => rfl, fun h => absurd rfl h, by decide⟩, by decide⟩

theorem witness_OutOfBoundsReports256 : (placed 255 [0x47]).Inv ∧ after (placed 255 [0x47]) (fun t => t.err) = some (some (.outOfBounds 256)) :=
  ⟨⟨by decide, fun _ => rfl, fun h => absurd rfl h, by decide⟩, by decide⟩

/-- A bad first access, a bad second access, and a bad operand that is not accessed. -/
theorem witness_InvalidRegisterIsTheFirstBadAccess : State.reset.err = none ∧
    (accessedRegisters State.reset (.add 7 8)).find? (fun a => 8 ≤ a.toNat) = some 8 ∧
    (accessedRegisters State.reset (.jne 9)).find? (fun a => 8 ≤ a.toNat) = some 9 ∧
    (accessedRegisters State.reset (.jeq 9)).find? (fun a => 8 ≤ a.toNat) = none := by decide

theorem witness_WellFormedInstructionsComplete : (Instr.call 7).WellFormed ∧ (placed 253 [0x50, 7]).err = none ∧
    (placed 253 [0x50, 7]).pc.toNat + 2 < 256 := by decide

theorem witness_EndsWellExactlyAtHlt : (placed 255 [0x01]).Inv ∧ after (placed 255 [0x01]) (fun t => (t.run, t.err)) = some (.halted, none) :=
  ⟨⟨by decide, fun _ => rfl, fun h => absurd rfl h, by decide⟩, by decide⟩

/-- A straight-line row and the stop row, each running without a fault. -/
theorem witness_PcFollowsTheTableTag : (lookup 0xA0).map (fun r => (r.pcClass, r.operands)) = some (.straightLine, 2) ∧
    (lookup 0x01).map (fun r => r.pcClass) = some .stop ∧
    after (placed 0 [0xA0, 0, 1]) (fun t => (t.pc, t.err)) = some (3, none) ∧
    after (placed 7 [0x01]) (fun t => (t.pc, t.err)) = some (7, none) := by decide

/-- The five PC-owning rows, each running without a fault: CALL to SP's register, RET, JMP, a taken JNE, JEQ not taken. -/
theorem witness_PcFollowsTheTableTag_owned :
    [0x50, 0x11, 0x54, 0x56, 0x55].map (fun op : Byte => (lookup op).map (fun r => r.pcClass)) =
      List.replicate 5 (some .pcOwning) ∧
    after (placed 0 [0x50, 7]) (fun t => (t.pc, t.err)) = some (0xF3, none) ∧
    after (withCell (placed 0 [0x11]) 0xF4 6) (fun t => (t.pc, t.err)) = some (6, none) ∧
    after (withX (placed 0 [0x54, 0]) 0 0xFF) (fun t => (t.pc, t.err)) = some (0xFF, none) ∧
    after (withX (placed 0x40 [0x56, 0]) 0 9) (fun t => (t.pc, t.err)) = some (9, none) ∧
    after (placed 0xFE [0x55, 8]) (fun t => (t.pc, t.err)) = some (0x100, none) := by decide

theorem witness_JumpToItselfDoesNotAdvance : Fetches (withX (placed 0x50 [0x54, 0]) 0 0x50) (.jmp 0) ∧
    ((withX (placed 0x50 [0x54, 0]) 0 0x50).x 0).toNat = (withX (placed 0x50 [0x54, 0]) 0 0x50).pc.toNat :=
  ⟨fetches_of_fetchInstr (by decide) (by decide), by decide⟩

theorem witness_PushThenPopIsARoundTrip : (7 : Byte).toNat < 8 ∧ (0 : Byte).toNat < 8 := by decide

theorem witness_StackIsLastInFirstOut : (6 : Byte).toNat < 8 ∧ (6 : Byte) ≠ 7 ∧ (0 : Byte).toNat < 8 ∧ (0 : Byte) ≠ 7 ∧
    (6 : Byte) ≠ 0 := by decide

theorem witness_CallThenRetReturns : (7 : Byte).toNat < 8 ∧ (placed 253 []).pc.toNat ≤ 253 := by decide

/-- Equal and unequal registers. -/
theorem witness_CompareThenBranch : (7 : Byte).toNat < 8 ∧ State.reset.x 0 = State.reset.x 1 ∧ State.reset.x 0 ≠ State.reset.x 7 := by
  decide

/-- Program P5's third step: PUSH r0 at 6 with SP = 9 and R0 = 1, so that the slot is the next opcode, HLT. -/
theorem witness_StoreIsSeenByTheVeryNextFetch_push :
    Fetches (withX (withX (placed 6 [0x45, 0]) 7 9) 0 1) (.push 0) ∧
    (0x01 : Byte) = (if (0 : Byte).toNat = 7 then (withX (withX (placed 6 [0x45, 0]) 7 9) 0 1).x 7 - 1
      else (withX (withX (placed 6 [0x45, 0]) 7 9) 0 1).x 0) ∧
    after (stepped (withX (withX (placed 6 [0x45, 0]) 7 9) 0 1)) (fun t => (t.run, t.err)) = some (.halted, none) :=
  ⟨fetches_of_fetchInstr (by decide) (by decide), by decide, by decide⟩

/-- CALL r7 at 0x0F stores 0x11, RET, at the slot it jumps to, and the next step returns to that slot's byte. -/
theorem witness_StoreIsSeenByTheVeryNextFetch_call : Fetches (withX (placed 0x0F [0x50, 7]) 7 0) (.call 7) ∧
    (0x11 : Byte).toNat = (withX (placed 0x0F [0x50, 7]) 7 0).pc.toNat + 2 ∧
    after (withX (placed 0x0F [0x50, 7]) 7 0) (fun t => t.pc) = some 0xFF ∧
    after (stepped (withX (placed 0x0F [0x50, 7]) 7 0)) (fun t => (t.pc, t.x 7)) = some (0x11, 0) :=
  ⟨fetches_of_fetchInstr (by decide) (by decide), by decide, by decide, by decide⟩

end Sys2Proof.Tests
end

section
/-! Which fault an instruction raises, as a function of the state it is executed in. -/

namespace Sys2Proof.Machine

variable {s : State} {i : Instr}

/-- The first register operand an instruction accesses that names no register (`60_exceptions.md` R152). -/
def firstBadAccess (s : State) (i : Instr) : Option Byte := (accessedRegisters s i).find? (fun a => 8 ≤ a.toNat)

/-- CALL's return address, when no cell can hold it (`44_subroutine.md` R120). -/
def badReturnAddress (s : State) : Instr → Option Nat
  | .call _ => if s.pc.toNat + 2 < 256 then none else some (s.pc.toNat + 2)
  | _ => none

/-- The fault an instruction raises, if any: registers are checked before the return address (`60_exceptions.md` R151, R152). -/
def faultOf (s : State) (i : Instr) : Option CoreError :=
  match firstBadAccess s i with
  | some k => some (.invalidRegister k)
  | none => (badReturnAddress s i).map .outOfBounds

/-- Only CALL can lack a return address. -/
theorem badReturnAddress_eq_some {ret : Nat} (h : badReturnAddress s i = some ret) :
    ∃ a, i = .call a ∧ 256 ≤ s.pc.toNat + 2 ∧ ret = s.pc.toNat + 2 := by
  cases i <;> grind [badReturnAddress]

/-- Every register an instruction accesses is valid exactly when none is the first bad one. -/
theorem firstBadAccess_eq_none : firstBadAccess s i = none ↔ ∀ a ∈ accessedRegisters s i, a.toNat < 8 := by
  simp [firstBadAccess]

theorem find_bad_singleton {a k : Byte} (h : [a].find? (fun a => 8 ≤ a.toNat) = some k) : 8 ≤ a.toNat ∧ a = k := by
  simpa using h

theorem find_bad_pair {a b k : Byte} (h : [a, b].find? (fun a => 8 ≤ a.toNat) = some k) :
    (8 ≤ a.toNat ∧ a = k) ∨ (a.toNat < 8 ∧ 8 ≤ b.toNat ∧ b = k) := by
  grind

/-- An instruction reports the first bad register it accesses. -/
theorem exec_of_firstBadAccess {k : Byte} (h : firstBadAccess s i = some k) :
    exec i s = .next (s.raised (.invalidRegister k)) := by
  cases i with
  | add a b =>
    rcases find_bad_pair h with ⟨ha, rfl⟩ | ⟨ha, hb, rfl⟩
    · exact exec_add_bad_a s b ha
    · exact exec_add_bad_b s ha hb
  | mul a b =>
    rcases find_bad_pair h with ⟨ha, rfl⟩ | ⟨ha, hb, rfl⟩
    · exact exec_mul_bad_a s b ha
    · exact exec_mul_bad_b s ha hb
  | cmp a b =>
    rcases find_bad_pair h with ⟨ha, rfl⟩ | ⟨ha, hb, rfl⟩
    · exact exec_cmp_bad_a s b ha
    · exact exec_cmp_bad_b s ha hb
  | ldi a imm => obtain ⟨ha, rfl⟩ := find_bad_singleton h; exact exec_ldi_bad s imm ha
  | prn a => obtain ⟨ha, rfl⟩ := find_bad_singleton h; exact exec_prn_bad s ha
  | push a => obtain ⟨ha, rfl⟩ := find_bad_singleton h; exact exec_push_bad s ha
  | pop a => obtain ⟨ha, rfl⟩ := find_bad_singleton h; exact exec_pop_bad s ha
  | call a => obtain ⟨ha, rfl⟩ := find_bad_singleton h; exact exec_call_bad s ha
  | jmp a => obtain ⟨ha, rfl⟩ := find_bad_singleton h; exact exec_jmp_bad s ha
  | jeq a =>
    cases he : s.equal with
    | true =>
      obtain ⟨ha, rfl⟩ := find_bad_singleton (by simpa [firstBadAccess, accessedRegisters, he] using h)
      exact exec_jeq_bad s ha he
    | false => simp [firstBadAccess, accessedRegisters, he] at h
  | jne a =>
    cases he : s.equal with
    | true => simp [firstBadAccess, accessedRegisters, he] at h
    | false =>
      obtain ⟨ha, rfl⟩ := find_bad_singleton (by simpa [firstBadAccess, accessedRegisters, he] using h)
      exact exec_jne_bad s ha he
  | ret => cases h
  | hlt => cases h

/-- An instruction whose accessed registers are valid, and whose return address fits if it is CALL, completes. -/
theorem completes_of_valid (hr : ∀ a ∈ accessedRegisters s i, a.toNat < 8) (hc : badReturnAddress s i = none) :
    ∃ t, Completes s t i := by
  cases i with
  | add a b => exact ⟨_, hr a (.head _), hr b (.tail _ (.head _)), rfl⟩
  | mul a b => exact ⟨_, hr a (.head _), hr b (.tail _ (.head _)), rfl⟩
  | cmp a b => exact ⟨_, hr a (.head _), hr b (.tail _ (.head _)), rfl⟩
  | ldi a imm => exact ⟨_, hr a (.head _), rfl⟩
  | prn a => exact ⟨_, hr a (.head _), rfl⟩
  | push a => exact ⟨_, hr a (.head _), rfl⟩
  | pop a => exact ⟨_, hr a (.head _), rfl⟩
  | call a => exact ⟨_, hr a (.head _), by_contra fun hn => by simp [badReturnAddress, hn] at hc, rfl⟩
  | jmp a => exact ⟨_, hr a (.head _), rfl⟩
  | jeq a =>
    cases he : s.equal with
    | true => exact ⟨_, .inl ⟨he, hr a (by simp [accessedRegisters, he]), rfl⟩⟩
    | false => exact ⟨_, .inr ⟨he, rfl⟩⟩
  | jne a =>
    cases he : s.equal with
    | true => exact ⟨_, .inr ⟨he, rfl⟩⟩
    | false => exact ⟨_, .inl ⟨he, hr a (by simp [accessedRegisters, he]), rfl⟩⟩
  | ret => exact ⟨_, rfl⟩
  | hlt => exact ⟨_, rfl⟩

/-- An instruction raises the fault `faultOf` names. -/
theorem exec_of_faultOf_some {e : CoreError} (h : faultOf s i = some e) : exec i s = .next (s.raised e) := by
  cases hb : firstBadAccess s i with
  | some k =>
    simp only [faultOf, hb, Option.some.injEq] at h
    exact h ▸ exec_of_firstBadAccess hb
  | none =>
    simp only [faultOf, hb, Option.map_eq_some_iff] at h
    obtain ⟨ret, hret, rfl⟩ := h
    obtain ⟨a, rfl, hpc, rfl⟩ := badReturnAddress_eq_some hret
    exact exec_call_no_return s (firstBadAccess_eq_none.1 hb a (.head _)) hpc

/-- An instruction completes when `faultOf` names no fault. -/
theorem completes_of_faultOf_none (h : faultOf s i = none) : ∃ t, Completes s t i := by
  cases hb : firstBadAccess s i with
  | some k => simp [faultOf, hb] at h
  | none => exact completes_of_valid (firstBadAccess_eq_none.1 hb) (by simpa [faultOf, hb] using h)

end Sys2Proof.Machine
end

section
/-! OUT: what an instruction prints, and that nothing reads what is printed already (`10_state.md` R24). -/

namespace Sys2Proof.Machine

variable {s t : State} {i : Instr}

/-- The same state with another OUT. -/
def State.withOut (s : State) (o : List Byte) : State := { s with out := o }

/-- What an instruction prints when it completes: PRN its register, the others nothing. -/
def printed (s : State) : Instr → List Byte
  | .prn a => if ha : a.toNat < 8 then [s.x ⟨a.toNat, ha⟩] else []
  | _ => []

theorem printed_prn {a : Byte} (ha : a.toNat < 8) : printed s (.prn a) = [s.x ⟨a.toNat, ha⟩] := dif_pos ha

/-- An instruction prints one value, and is a PRN of a valid register, or prints nothing. -/
theorem printed_cases (s : State) (i : Instr) :
    printed s i = [] ∨ ∃ (a : Byte) (ha : a.toNat < 8), i = .prn a ∧ printed s i = [s.x ⟨a.toNat, ha⟩] := by
  cases i with
  | prn a =>
    rcases Nat.lt_or_ge a.toNat 8 with ha | ha
    · exact .inr ⟨a, ha, rfl, printed_prn ha⟩
    · exact .inl (dif_neg (by omega))
  | _ => exact .inl rfl

/-- A completing instruction appends what it prints to OUT. -/
theorem completes_out (h : Completes s t i) : t.out = s.out ++ printed s i := by
  cases i <;> simp only [Completes] at h <;>
    grind [State.advance_out, State.jump_out, State.setX_out, State.pushed_out, State.incSp_eq, State.emit_out,
      State.setEqual_out, State.halt_out, printed]

theorem State.withOut_append_nil (s : State) (o : List Byte) : s.withOut (o ++ []) = s.withOut o := by
  rw [List.append_nil]

/-- A completing instruction completes alike whatever OUT holds, and prints the same. -/
theorem completes_withOut (o : List Byte) (h : Completes s t i) :
    Completes (s.withOut o) (t.withOut (o ++ printed s i)) i := by
  cases i with
  | prn a => obtain ⟨ha, rfl⟩ := h; exact ⟨ha, by rw [printed_prn ha]; rfl⟩
  | add a b => obtain ⟨ha, hb, rfl⟩ := h; exact ⟨ha, hb, State.withOut_append_nil _ o⟩
  | mul a b => obtain ⟨ha, hb, rfl⟩ := h; exact ⟨ha, hb, State.withOut_append_nil _ o⟩
  | cmp a b => obtain ⟨ha, hb, rfl⟩ := h; exact ⟨ha, hb, State.withOut_append_nil _ o⟩
  | ldi a imm => obtain ⟨ha, rfl⟩ := h; exact ⟨ha, State.withOut_append_nil _ o⟩
  | push a => obtain ⟨ha, rfl⟩ := h; exact ⟨ha, State.withOut_append_nil _ o⟩
  | pop a => obtain ⟨ha, rfl⟩ := h; exact ⟨ha, State.withOut_append_nil _ o⟩
  | call a => obtain ⟨ha, hpc, rfl⟩ := h; exact ⟨ha, hpc, State.withOut_append_nil _ o⟩
  | jmp a => obtain ⟨ha, rfl⟩ := h; exact ⟨ha, State.withOut_append_nil _ o⟩
  | jeq a =>
    rcases h with ⟨he, ha, rfl⟩ | ⟨he, rfl⟩
    · exact .inl ⟨he, ha, State.withOut_append_nil _ o⟩
    · exact .inr ⟨he, State.withOut_append_nil _ o⟩
  | jne a =>
    rcases h with ⟨he, ha, rfl⟩ | ⟨he, rfl⟩
    · exact .inl ⟨he, ha, State.withOut_append_nil _ o⟩
    · exact .inr ⟨he, State.withOut_append_nil _ o⟩
  | ret => subst h; exact State.withOut_append_nil _ o
  | hlt => subst h; exact State.withOut_append_nil _ o

/-- No check reads OUT. -/
theorem faultOf_withOut (o : List Byte) : faultOf (s.withOut o) i = faultOf s i := by
  cases i <;> rfl

/-- A faulting instruction prints nothing. -/
theorem printed_of_faultOf_some {e : CoreError} (h : faultOf s i = some e) : printed s i = [] := by
  rcases printed_cases s i with hp | ⟨a, ha, rfl, -⟩
  · exact hp
  · have hnone : firstBadAccess s (.prn a) = none :=
      firstBadAccess_eq_none.2 (by simpa [accessedRegisters, Instr.registerOperands] using ha)
    simp [faultOf, hnone, badReturnAddress] at h

/-- An instruction appends what it prints to OUT, and does the same whatever OUT holds. -/
theorem exec_withOut (o : List Byte) (h : exec i s = .next t) :
    t.out = s.out ++ printed s i ∧ exec i (s.withOut o) = .next (t.withOut (o ++ printed s i)) := by
  cases hf : faultOf s i with
  | some e =>
    rw [exec_of_faultOf_some hf] at h
    cases h
    rw [exec_of_faultOf_some ((faultOf_withOut o).trans hf), printed_of_faultOf_some hf, State.withOut_append_nil]
    exact ⟨(List.append_nil _).symm, rfl⟩
  | none =>
    obtain ⟨u, hu⟩ := completes_of_faultOf_none hf
    rw [exec_of_completes hu] at h
    cases h
    exact ⟨completes_out hu, exec_of_completes (completes_withOut o hu)⟩

/-- A step appends to OUT what the instruction at PC prints, nothing when its fetch fails, and does the same whatever OUT holds. -/
theorem step_withOut (o : List Byte) (h : step s = .next t) :
    ∃ d, t.out = s.out ++ d ∧ step (s.withOut o) = .next (t.withOut (o ++ d)) ∧
      ((∃ i, Fetches s i ∧ d = printed s i) ∨ ((∀ i, ¬ Fetches s i) ∧ d = [])) := by
  obtain ⟨hr, ⟨i, hf, hx⟩ | ⟨e, he, rfl⟩⟩ := step_cases h
  · obtain ⟨hout, hexec⟩ := exec_withOut o hx
    exact ⟨_, hout, (step_of_fetches (s := s.withOut o) hf).trans hexec, .inl ⟨i, hf, rfl⟩⟩
  · refine ⟨[], (List.append_nil _).symm, ?_, .inr ⟨fun i hi => ?_, rfl⟩⟩
    · rw [State.withOut_append_nil]
      exact step_of_fetch_error (s := s.withOut o) hr he
    · rw [(fetchInstr_ok_iff s i).2 hi.2] at he
      cases he

end Sys2Proof.Machine
end

section
/-! The statements about the state (`10_state.md`): register access, RUN and OUT. -/

namespace Sys2Proof.Machine

/-- Settles O9, by the index check's two answers. -/
theorem registerAccessIsIndexChecked : Obligations.RegisterAccessIsIndexChecked := by
  intro s i v
  refine ⟨fun hi => ⟨getReg_error s hi, setReg_error s v hi⟩, fun hi => ⟨getReg_ok s hi, ?_⟩⟩
  refine ⟨_, setReg_ok s v hi, State.x_setX_self .., ?_, fun r hr => ?_, rfl⟩
  · rw [getReg_ok _ hi, State.x_setX_self]
  · exact State.x_setX_of_ne (h := fun heq => hr (by simp [heq])) ..

/-- Settles O28: only HLT's completion and the fault entry leave a Running machine Halted. -/
theorem runChangesOnlyByHltOrFault : Obligations.RunChangesOnlyByHltOrFault := by
  refine ⟨rfl, fun s hs t h => ?_, fun s t hr h => ⟨fun ht => ?_, ?_⟩⟩
  · rw [step_halted hs] at h
    cases h
  · obtain ⟨-, ⟨i, hf, hc⟩ | hraised⟩ := step_completes_or_raised h
    · by_cases hi : i = .hlt
      · exact .inl (hi ▸ hf)
      · have hrun : t.run = .running := by rw [completes_run hc, if_neg hi, hr]
        rw [hrun] at ht
        cases ht
    · exact .inr hraised
  · rintro (hf | ⟨e, rfl⟩)
    · rw [step_of_fetches hf, exec_hlt] at h
      cases h
      rfl
    · rfl

/-- Settles O35: a step from any OUT prints what the instruction at PC prints, and at most one instruction stands there. -/
theorem outGrowsOnlyByPrnAndIsNeverRead : Obligations.OutGrowsOnlyByPrnAndIsNeverRead := by
  refine ⟨rfl, fun s t o h => ?_⟩
  obtain ⟨d, hout, hstep, ⟨i, hf, rfl⟩ | ⟨hnone, rfl⟩⟩ := step_withOut o h
  · refine ⟨_, hout, hstep, fun a ha hprn => ?_, ?_⟩
    · rw [fetches_unique hf hprn, printed_prn ha]
    · rcases printed_cases s i with hp | ⟨a, ha, rfl, hp⟩
      · exact .inl hp
      · exact .inr ⟨a, ha, hf, hp⟩
  · exact ⟨[], hout, hstep, fun a _ hprn => absurd hprn (hnone _), .inl rfl⟩

end Sys2Proof.Machine
end

section
/-! The statements about memory (`20_memory.md`). -/

namespace Sys2Proof.Machine

/-- Settles O5, by the bound check's two answers. -/
theorem memReadIsBoundChecked : Obligations.MemReadIsBoundChecked :=
  fun s _ => ⟨memRead_error s, memRead_ok s⟩

end Sys2Proof.Machine
end

section
/-! The statements about the encoding (`30_encoding.md`): what the list decoder and the machine make of an opcode byte. -/

namespace Sys2Proof.Machine

/-- A row counts as many operands as the two high bits of its opcode say (`30_encoding.md` R52). -/
theorem row_operands_eq_high_bits : ∀ row ∈ opcodeTable, row.operands = row.opcode.toNat / 64 := by decide

/-- The dispatcher finds no row exactly for the bytes outside the thirteen. -/
theorem lookup_eq_none_iff_not_legal {op : Byte} : lookup op = none ↔ op ∉ legalOpcodes := by
  rw [legal_iff_lookup]
  cases hl : lookup op with
  | none => simp
  | some row =>
    obtain ⟨hm, rfl⟩ := lookup_cases hl
    simpa using row_operands_eq_high_bits row hm

/-- A byte whose two high bits are both set is outside the thirteen: no row counts three operands. -/
theorem not_legal_of_high_bits_eq_three {op : Byte} (h : op.toNat / 64 = 3) : op ∉ legalOpcodes := by
  intro hop
  obtain ⟨row, hl, hn⟩ := (legal_iff_lookup op).1 hop
  have hle := row_operands_le row (lookup_cases hl).1
  omega

/-- The list decoder rejects a byte outside the thirteen whatever follows it (`30_encoding.md` R57). -/
theorem decode_of_not_legal {op : Byte} (rest : List Byte) (h : op ∉ legalOpcodes) :
    decode (op :: rest) = .error (.illegalOpcode op) :=
  decodeFrom_illegal rfl (lookup_eq_none_iff_not_legal.2 h)

/-- Bytes that begin with an instruction's encoding decode to it. -/
theorem decode_of_encode_prefix {i : Instr} {bytes : List Byte} (h : encode i <+: bytes) : decode bytes = .ok i := by
  refine (decodeFrom_ok_iff i).2 fun k v hk => ?_
  obtain ⟨hlt, rfl⟩ := List.getElem?_eq_some_iff.1 hk
  rw [List.prefix_iff_getElem?.1 h k hlt]

/-- A legal opcode with two bytes after it decodes, whatever these bytes are (`30_encoding.md` R56). -/
theorem decode_of_legal {op : Byte} (a b : Byte) (h : op ∈ legalOpcodes) : ∃ i, decode [op, a, b] = .ok i := by
  obtain ⟨row, hl, -⟩ := (legal_iff_lookup op).1 h
  obtain ⟨hm, rfl⟩ := lookup_cases hl
  refine ⟨row.build a b, decode_of_encode_prefix ?_⟩
  rw [encode_build row hm]
  exact (List.prefix_cons_inj _).2 (List.take_prefix _ _)

/-- Among the 256 byte values the legal ones are the thirteen listed, each once. -/
theorem filter_legal_perm :
    ((List.range 256).filter (fun n => BitVec.ofNat 8 n ∈ legalOpcodes)).Perm (legalOpcodes.map BitVec.toNat) := by
  refine (List.perm_ext_iff_of_nodup (List.nodup_range.filter _) (by decide)).2 fun n => ?_
  simp only [List.mem_filter, List.mem_range, decide_eq_true_eq, List.mem_map]
  constructor
  · rintro ⟨hn, hop⟩
    exact ⟨_, hop, Nat.mod_eq_of_lt hn⟩
  · rintro ⟨op, hop, rfl⟩
    exact ⟨op.isLt, by rwa [BitVec.ofNat_toNat, BitVec.setWidth_eq]⟩

/-- All but thirteen of the 256 bytes are illegal (`30_encoding.md` R57). -/
theorem length_filter_not_legal :
    ((List.range 256).filter (fun n => BitVec.ofNat 8 n ∉ legalOpcodes)).length = 243 := by
  have hsplit := List.length_eq_length_filter_add (l := List.range 256) (fun n => BitVec.ofNat 8 n ∈ legalOpcodes)
  have hlegal := filter_legal_perm.length_eq
  simp only [List.length_range, List.length_map, ← decide_not] at hsplit hlegal
  have hcount : legalOpcodes.length = 13 := rfl
  omega

/-- A Running machine that fetches a byte outside the thirteen raises the report of that byte (`60_exceptions.md` R154). -/
theorem step_of_not_legal {s : State} (hr : s.run = .running) (hpc : s.pc.toNat < 256)
    (h : s.cell s.pc.toNat ∉ legalOpcodes) :
    step s = .next (s.raised (.illegalInstruction (s.cell s.pc.toNat))) :=
  step_of_fetch_error hr (fetchInstr_illegal hpc (lookup_eq_none_iff_not_legal.2 h))

/-- Settles O2: the bytes outside the thirteen are those the dispatcher finds no row for, and a row's operands are taken as
they are. -/
theorem opcodesOutsideTheTableAreIllegal : Obligations.OpcodesOutsideTheTableAreIllegal :=
  ⟨fun _ => decode_of_not_legal, fun _ => decode_of_legal, by decide, length_filter_not_legal, fun _ => step_of_not_legal⟩

/-- An encoding is its opcode byte and as many operand bytes as the opcode's two high bits say, at most two. -/
theorem encode_eq_opcode_cons_operands (i : Instr) :
    ∃ op rest, encode i = op :: rest ∧ rest.length = op.toNat / 64 ∧ op.toNat / 64 ≤ 2 := by
  obtain ⟨row, a, b, hm, -, henc, -, -⟩ := encode_row i
  have hle := row_operands_le row hm
  have hbits := row_operands_eq_high_bits row hm
  exact ⟨row.opcode, _, henc, by simp [← hbits, hle], hbits ▸ hle⟩

/-- Settles O3: a row's operand count is its opcode's two high bits, and it is never three. -/
theorem highOpcodeBitsCountTheOperands : Obligations.HighOpcodeBitsCountTheOperands := by
  refine ⟨fun i => ?_, fun op rest h => decode_of_not_legal rest (not_legal_of_high_bits_eq_three h)⟩
  obtain ⟨op, rest, henc, hlen, hle⟩ := encode_eq_opcode_cons_operands i
  exact ⟨op, rest, henc, hlen, hle, by rw [henc, List.length_cons, hlen, Nat.add_comm]⟩

end Sys2Proof.Machine
end

section
/-! An instruction's own bytes, and the ALU and its two instructions (`41_alu.md`). -/

namespace Sys2Proof.Machine

/-- Every instruction's encoding and its fetch faults (`40_execution_loop.md` R75, R76, R77). -/
theorem encodedAs_encode (i : Instr) : EncodedAs i (encode i) := by
  refine ⟨rfl, fun s hr hlen hold => step_of_fetches ⟨hr, hlen, hold⟩, fun s hr hpc hlen hop => ?_,
    fun s hr hpc => step_of_fetch_error hr (fetchInstr_beyond hpc)⟩
  obtain ⟨row, a, b, hm, -, henc, -, -⟩ := encode_row i
  rw [henc] at hop hlen
  have hl : lookup (s.cell s.pc.toNat) = some row := by
    rw [← Option.some.inj hop]
    exact lookup_opcode row hm
  have hbeyond : 256 ≤ s.pc.toNat + row.operands := by
    simp only [List.length_cons, List.length_take] at hlen
    omega
  exact step_of_fetch_error hr (fetchInstr_operand_beyond hpc hl hbeyond)

/-- An instruction that writes one register and advances changes that register and PC, and nothing else. -/
theorem setX_advance_frame (s : State) (r : Fin 8) (v : Byte) (n : Nat) :
    ((s.setX r v).advance n).pc = s.pc + BitVec.ofNat 9 n ∧ SameRegsBut s ((s.setX r v).advance n) [r] ∧
      ((s.setX r v).advance n).equal = s.equal ∧ SameCellsBut s ((s.setX r v).advance n) [] ∧
      SameRunErr s ((s.setX r v).advance n) ∧ ((s.setX r v).advance n).out = s.out :=
  ⟨rfl, fun _ hq => State.x_setX_of_ne (h := Ne.symm (List.ne_of_not_mem_cons hq)) .., rfl, fun _ _ => rfl, ⟨rfl, rfl⟩, rfl⟩

/-- The ALU computes three operations and no other (`41_alu.md` R94). -/
theorem alu_unsupported {op : AluOp} (p q : Byte) (hadd : op ≠ .add) (hsub : op ≠ .sub) (hmul : op ≠ .mul) :
    alu op p q = .error (.unsupportedOperation op) := by
  cases op
  case add => exact absurd rfl hadd
  case sub => exact absurd rfl hsub
  case mul => exact absurd rfl hmul
  all_goals rfl

/-- Byte subtraction is the non-negative remainder of the difference. -/
theorem toNat_sub_eq_emod (p q : Byte) : ((p - q).toNat : Int) = ((p.toNat : Int) - q.toNat) % 256 := by
  rw [BitVec.toNat_sub]
  omega

/-- Settles O10: the three operations are the arithmetic of bytes, and every other name is unsupported. -/
theorem aluComputesModulo256 : Obligations.AluComputesModulo256 := fun p q =>
  ⟨⟨p + q, rfl, BitVec.toNat_add p q⟩, ⟨p - q, rfl, toNat_sub_eq_emod p q⟩, ⟨p * q, rfl, BitVec.toNat_mul p q⟩,
    fun _ => alu_unsupported p q⟩

/-- Settles O12: the sum is the one register write, and a bad index is met before it. -/
theorem addStoresTheSum : Obligations.AddStoresTheSum := by
  refine fun a b => ⟨encodedAs_encode (.add a b), fun s =>
    ⟨fun ha hb => ⟨_, exec_add s ha hb, ?_, setX_advance_frame ..⟩, exec_add_bad_a s b, exec_add_bad_b s⟩⟩
  rw [State.advance_x, State.x_setX_self]
  exact BitVec.toNat_add ..

/-- Settles O13: the product's low byte is the one register write, and a bad index is met before it. -/
theorem mulStoresTheLowByteOfTheProduct : Obligations.MulStoresTheLowByteOfTheProduct := by
  refine fun a b => ⟨encodedAs_encode (.mul a b), fun s =>
    ⟨fun ha hb => ⟨_, exec_mul s ha hb, ?_, setX_advance_frame ..⟩, exec_mul_bad_a s b, exec_mul_bad_b s⟩⟩
  rw [State.advance_x, State.x_setX_self]
  exact BitVec.toNat_mul ..

end Sys2Proof.Machine
end

section
/-! Load immediate and print (`42_ldi_prn.md`). -/

namespace Sys2Proof.Machine

/-- Printing a value and advancing changes OUT and PC, and nothing else. -/
theorem emit_advance_frame (s : State) (v : Byte) (n : Nat) :
    ((s.emit v).advance n).out = s.out ++ [v] ∧ ((s.emit v).advance n).pc = s.pc + BitVec.ofNat 9 n ∧
      SameRegsBut s ((s.emit v).advance n) [] ∧ ((s.emit v).advance n).equal = s.equal ∧
      SameCellsBut s ((s.emit v).advance n) [] ∧ SameRunErr s ((s.emit v).advance n) :=
  ⟨rfl, rfl, fun _ _ => rfl, rfl, fun _ _ => rfl, ⟨rfl, rfl⟩⟩

/-- Settles O14: the immediate is the one register write, and only the register's index is checked. -/
theorem ldiLoadsTheImmediate : Obligations.LdiLoadsTheImmediate := by
  refine fun a imm => ⟨encodedAs_encode (.ldi a imm), fun s =>
    ⟨fun ha => ⟨_, exec_ldi s imm ha, ?_, setX_advance_frame ..⟩, exec_ldi_bad s imm⟩⟩
  rw [State.advance_x, State.x_setX_self]

/-- Settles O15: a valid register's value is emitted, and a bad index is met before anything is. -/
theorem prnAppendsTheRegister : Obligations.PrnAppendsTheRegister := fun a =>
  ⟨encodedAs_encode (.prn a), fun s => ⟨fun ha => ⟨_, exec_prn s ha, emit_advance_frame ..⟩, exec_prn_bad s⟩⟩

end Sys2Proof.Machine
end

section
/-! Compare and branch (`45_compare_branch.md`). -/

namespace Sys2Proof.Machine

/-- What CMP writes says whether the two bytes are the same (`45_compare_branch.md` R130). -/
theorem equalOf_eq_true_iff {p q : Byte} : equalOf p q = true ↔ p = q := beq_iff_eq

/-- Writing the flag and advancing changes PC and the flag, and nothing else. -/
theorem setEqual_advance_frame (s : State) (e : Bool) (n : Nat) :
    ((s.setEqual e).advance n).pc = s.pc + BitVec.ofNat 9 n ∧ SameRegsBut s ((s.setEqual e).advance n) [] ∧
      SameCellsBut s ((s.setEqual e).advance n) [] ∧ SameRunErr s ((s.setEqual e).advance n) ∧
      ((s.setEqual e).advance n).out = s.out :=
  ⟨rfl, fun _ _ => rfl, fun _ _ => rfl, ⟨rfl, rfl⟩, rfl⟩

/-- A jump leaves PC at the target's own value: the wider word loses no bit of it (`45_compare_branch.md` R134). -/
theorem State.jump_pc_toNat (s : State) (v : Byte) : (s.jump v).pc.toNat = v.toNat :=
  BitVec.toNat_setWidth_of_le (by decide)

/-- A jump changes PC, and nothing else. -/
theorem jump_frame (s : State) (v : Byte) :
    SameRegsBut s (s.jump v) [] ∧ SameCellsBut s (s.jump v) [] ∧ (s.jump v).equal = s.equal ∧
      SameRunErr s (s.jump v) ∧ (s.jump v).out = s.out :=
  ⟨fun _ _ => rfl, fun _ _ => rfl, rfl, ⟨rfl, rfl⟩, rfl⟩

/-- Settles O20: the flag's new value is the comparison of the two registers, and a bad index is met before the write. -/
theorem cmpSetsTheFlagToEquality : Obligations.CmpSetsTheFlagToEquality := fun a b =>
  ⟨encodedAs_encode (.cmp a b), fun s =>
    ⟨fun ha hb => ⟨_, exec_cmp s ha hb, equalOf_eq_true_iff, setEqual_advance_frame ..⟩, exec_cmp_bad_a s b,
      exec_cmp_bad_b s⟩⟩

/-- Settles O21: the register's value is the target, and a bad index is met before the jump. -/
theorem jmpGoesToTheRegister : Obligations.JmpGoesToTheRegister := fun a =>
  ⟨encodedAs_encode (.jmp a), fun s =>
    ⟨fun ha => ⟨_, exec_jmp s ha, State.jump_pc_toNat .., jump_frame ..⟩, exec_jmp_bad s⟩⟩

end Sys2Proof.Machine
end

section
/-! The statements about the error reports (`60_exceptions.md`). -/

namespace Sys2Proof.Machine

variable {s t : State} {i : Instr}

/-- The report an instruction leaves, from a state without one, is the fault it raises, if any. -/
theorem exec_err_eq_faultOf (hs : s.err = none) (h : exec i s = .next t) : t.err = faultOf s i := by
  cases hf : faultOf s i with
  | some e =>
    rw [exec_of_faultOf_some hf] at h
    cases h
    exact State.raised_err ..
  | none =>
    obtain ⟨u, hu⟩ := completes_of_faultOf_none hf
    rw [exec_of_completes hu] at h
    cases h
    rw [completes_err hu, hs]

/-- An instruction's fault is a bad register exactly when it accesses one, and names the first (`60_exceptions.md` R152). -/
theorem faultOf_eq_invalidRegister_iff {k : Byte} :
    faultOf s i = some (.invalidRegister k) ↔ firstBadAccess s i = some k := by
  cases hb : firstBadAccess s i <;> simp [faultOf, hb]

/-- Settles O41: the report is `faultOf`'s answer, which is a bad register only for the first bad access. -/
theorem invalidRegisterIsTheFirstBadAccess : Obligations.InvalidRegisterIsTheFirstBadAccess := by
  refine fun i s k hs => ⟨fun ⟨t, ht, hk⟩ => ?_, fun hk => ⟨_, exec_of_firstBadAccess hk, State.raised_err ..⟩⟩
  exact faultOf_eq_invalidRegister_iff.1 (exec_err_eq_faultOf hs ht ▸ hk)

/-- Raising a fault changes RUN and ERR, and nothing else (`60_exceptions.md` R157). -/
theorem raised_frame (s : State) (e : CoreError) :
    SameRegsBut s (s.raised e) [] ∧ SameCellsBut s (s.raised e) [] ∧ (s.raised e).pc = s.pc ∧
      (s.raised e).equal = s.equal ∧ (s.raised e).out = s.out :=
  ⟨fun _ _ => rfl, fun _ _ => rfl, rfl, rfl, rfl⟩

/-- Settles O27: the fetch fails at the dispatcher, and the fault entry changes RUN and ERR alone. -/
theorem illegalOpcodeHaltsWithItsReport : Obligations.IllegalOpcodeHaltsWithItsReport :=
  fun _ hr hpc h => ⟨_, step_of_not_legal hr hpc h, rfl, rfl, raised_frame ..⟩

end Sys2Proof.Machine
end

section
/-! The round trip of the encoding (`30_encoding.md` sections 1 to 3), over a list of bytes and over memory. -/

namespace Sys2Proof.Machine

/-- Bytes that decode to an instruction begin with its encoding: the decoder has read every byte of it. -/
theorem encode_prefix_of_decode {i : Instr} {bytes : List Byte} (h : decode bytes = .ok i) : encode i <+: bytes := by
  refine List.prefix_iff_getElem?.2 fun k hk => ?_
  have hread := (decodeFrom_ok_iff i).1 h k _ (List.getElem?_eq_getElem hk)
  cases hb : bytes[k]? with
  | none => simp [hb] at hread
  | some v => simpa [hb] using hread

/-- Settles O1: the decoder reads the bytes of the encoding and no other. -/
theorem decodesExactlyTheEncodedPrefix : Obligations.DecodesExactlyTheEncodedPrefix :=
  fun _ _ => ⟨encode_prefix_of_decode, decode_of_encode_prefix⟩

/-- Every instruction has an opcode byte. -/
theorem encode_length_pos (i : Instr) : 0 < (encode i).length := by
  obtain ⟨op, rest, henc, -, -⟩ := encode_eq_opcode_cons_operands i
  simp [henc]

/-- An instruction whose encoding begins the bytes from PC to the end of memory is what a Running machine has at PC. -/
theorem fetches_of_prefix {s : State} {i : Instr} (hr : s.run = .running)
    (h : encode i <+: (List.range (256 - s.pc.toNat)).map (fun k => s.cell (s.pc.toNat + k))) : Fetches s i := by
  have hlen := h.length_le
  have hpos := encode_length_pos i
  rw [List.length_map, List.length_range] at hlen
  refine ⟨hr, by omega, fun k v hk => ?_⟩
  obtain ⟨hlt, rfl⟩ := List.getElem?_eq_some_iff.1 hk
  simpa using (h.getElem hlt).symm

/-- Settles O25: what the list decoder reads from the bytes at PC is what the machine fetches. -/
theorem stepRunsTheDecodedInstruction : Obligations.StepRunsTheDecodedInstruction :=
  fun _ _ hr h => step_of_fetches (fetches_of_prefix hr (encode_prefix_of_decode h))

/-- Settles O4: each word is evaluated. -/
theorem sampleWordsDecodeAsTheTableSays : Obligations.SampleWordsDecodeAsTheTableSays := by
  unfold Obligations.SampleWordsDecodeAsTheTableSays
  decide

end Sys2Proof.Machine
end

section
/-! The PC update (`40_execution_loop.md` section 4): where a completing instruction leaves PC, by the tag of its table row. -/

namespace Sys2Proof.Machine

variable {s t : State} {i : Instr}

/-- Who updates PC after an instruction: its table row's tag (`pcClassOf_build`). -/
def pcClassOf : Instr → PcClass
  | .add _ _ | .mul _ _ | .ldi _ _ | .prn _ | .push _ | .pop _ | .cmp _ _ => .straightLine
  | .call _ | .ret | .jmp _ | .jeq _ | .jne _ => .pcOwning
  | .hlt => .stop

theorem pcClassOf_build : ∀ row ∈ opcodeTable, ∀ a b, pcClassOf (row.build a b) = row.pcClass := by
  intro row h a b
  simp only [opcodeTable, List.mem_cons, List.not_mem_nil, or_false] at h
  rcases h with h | h | h | h | h | h | h | h | h | h | h | h | h <;> subst h <;> rfl

/-- A straight-line instruction that completes advances PC by its length. -/
theorem completes_pc_straightLine (hi : pcClassOf i = .straightLine) (h : Completes s t i) :
    t.pc = s.pc + BitVec.ofNat 9 (encode i).length := by
  cases i with
  | add a b => obtain ⟨ha, hb, rfl⟩ := h; rfl
  | mul a b => obtain ⟨ha, hb, rfl⟩ := h; rfl
  | cmp a b => obtain ⟨ha, hb, rfl⟩ := h; rfl
  | ldi a imm => obtain ⟨ha, rfl⟩ := h; rfl
  | prn a => obtain ⟨ha, rfl⟩ := h; rfl
  | push a => obtain ⟨ha, rfl⟩ := h; rfl
  | pop a => obtain ⟨ha, rfl⟩ := h; rfl
  | _ => cases hi

/-- HLT leaves PC at its opcode. -/
theorem completes_pc_stop (hi : pcClassOf i = .stop) (h : Completes s t i) : t.pc = s.pc := by
  cases i with
  | hlt => subst h; rfl
  | _ => cases hi

/-- A PC-owning instruction that completes leaves PC where its handler sets it. -/
theorem completes_pc_owning (hi : pcClassOf i = .pcOwning) (h : Completes s t i) : OwnedPc s t i := by
  cases i with
  | call a =>
    obtain ⟨ha, -, rfl⟩ := h
    exact ⟨ha, by rw [State.jump_pc_toNat, State.x_setX_sp]⟩
  | ret => subst h; exact State.jump_pc_toNat ..
  | jmp a => obtain ⟨ha, rfl⟩ := h; exact ⟨ha, State.jump_pc_toNat ..⟩
  | jeq a =>
    rcases h with ⟨he, ha, rfl⟩ | ⟨he, rfl⟩
    · simp only [OwnedPc, he, if_true]
      exact ⟨ha, State.jump_pc_toNat ..⟩
    · simp [OwnedPc, he]
  | jne a =>
    rcases h with ⟨he, ha, rfl⟩ | ⟨he, rfl⟩
    · simp only [OwnedPc, he, Bool.false_eq_true, if_false]
      exact ⟨ha, State.jump_pc_toNat ..⟩
    · simp [OwnedPc, he]
  | _ => cases hi

/-- An instruction that leaves no error report on a state without one has completed. -/
theorem completes_of_err_none (h : exec i s = .next t) (ht : t.err = none) : Completes s t i := by
  rcases completes_or_raised h with hc | ⟨e, rfl⟩
  · exact hc
  · cases ht

/-- Settles O44: a row's instruction has the row's tag, and its length is one more than the row's operand count. -/
theorem pcFollowsTheTableTag : Obligations.PcFollowsTheTableTag := by
  intro row a b s t hm _ hx ht
  have hc := completes_of_err_none hx ht
  have hclass := pcClassOf_build row hm a b
  refine ⟨fun hrow => ?_, fun hrow => completes_pc_stop (hclass.trans hrow) hc,
    fun hrow => completes_pc_owning (hclass.trans hrow) hc⟩
  have hlen : (encode (row.build a b)).length = 1 + row.operands := by
    have hle := row_operands_le row hm
    simp [encode_build row hm, hle, Nat.add_comm]
  rw [completes_pc_straightLine (hclass.trans hrow) hc, hlen]

end Sys2Proof.Machine
end

section
/-! The invariant of `10_state.md` section 9 along steps and runs. -/

namespace Sys2Proof.Machine

variable {s t : State} {i : Instr}

/-- A PC advanced within memory, or to its end, has not wrapped. -/
theorem pc_add_toNat {pc : PcWord} {n : Nat} (h : pc.toNat + n ≤ 256) : (pc + BitVec.ofNat 9 n).toNat = pc.toNat + n := by
  rw [BitVec.toNat_add, BitVec.toNat_ofNat, Nat.add_mod_mod, Nat.mod_eq_of_lt (by omega)]

/-- An instruction inside memory that owns PC leaves it at a byte, or two bytes on. -/
theorem ownedPc_le (hlen : s.pc.toNat + (encode i).length ≤ 256) (h : OwnedPc s t i) : t.pc.toNat ≤ 256 := by
  have byte_le : ∀ v : Byte, v.toNat ≤ 256 := fun v => v.isLt.le
  cases i with
  | call a => obtain ⟨_, hpc⟩ := h; exact hpc ▸ byte_le _
  | ret => exact h ▸ byte_le _
  | jmp a => obtain ⟨_, hpc⟩ := h; exact hpc ▸ byte_le _
  | jeq a =>
    simp only [OwnedPc] at h
    split at h
    · obtain ⟨_, hpc⟩ := h; exact hpc ▸ byte_le _
    · exact h ▸ (pc_add_toNat hlen).trans_le hlen
  | jne a =>
    simp only [OwnedPc] at h
    split at h
    · exact h ▸ (pc_add_toNat hlen).trans_le hlen
    · obtain ⟨_, hpc⟩ := h; exact hpc ▸ byte_le _
  | _ => cases h

/-- An instruction inside memory leaves PC at most one past its end when it completes (`10_state.md` R17). -/
theorem completes_pc_le (hlen : s.pc.toNat + (encode i).length ≤ 256) (h : Completes s t i) : t.pc.toNat ≤ 256 := by
  cases hi : pcClassOf i with
  | straightLine => rw [completes_pc_straightLine hi h, pc_add_toNat hlen]; exact hlen
  | stop => rw [completes_pc_stop hi h]; omega
  | pcOwning => exact ownedPc_le hlen (completes_pc_owning hi h)

/-- The fault entry keeps the invariant. -/
theorem raised_inv (hs : s.Inv) (e : CoreError) : (s.raised e).Inv :=
  ⟨hs.pc_le, fun h => (by cases h), fun _ => rfl, hs.mem_wf⟩

/-- A step keeps the canonical form of memory. -/
theorem step_mem_wf (h : step s = .next t) (hm : s.mem.wf) : t.mem.wf := by
  obtain ⟨-, ⟨i, -, hx⟩ | ⟨e, -, rfl⟩⟩ := step_cases h
  · exact exec_mem_wf hx hm
  · exact hm

/-- A step keeps the invariant: it completes an instruction inside memory, or enters a fault. -/
theorem step_keeps_inv (hs : s.Inv) (h : step s = .next t) : t.Inv := by
  obtain ⟨hr, ⟨i, ⟨-, hlen, -⟩, hc⟩ | ⟨e, rfl⟩⟩ := step_completes_or_raised h
  · have herr : t.err = none := by rw [completes_err hc, hs.err_none_of_running hr]
    exact ⟨completes_pc_le hlen hc, fun _ => herr, fun hne => absurd herr hne, step_mem_wf h hs.mem_wf⟩
  · exact raised_inv hs e

/-- Settles O31. -/
theorem stepKeepsTheInvariant : Obligations.StepKeepsTheInvariant := fun _ _ => step_keeps_inv

/-- Settles O30: at reset no cell is listed and no error is reported. -/
theorem resetSatisfiesTheInvariant : Obligations.ResetSatisfiesTheInvariant :=
  ⟨by decide, fun _ => rfl, fun h => absurd rfl h, reset_mem_wf⟩

/-- A Running machine has a next step: its fetch's fault, or what the fetched instruction gives. -/
theorem step_of_running (hr : s.run = .running) : ∃ t, step s = .next t := by
  cases hf : fetchInstr s with
  | error e => exact ⟨_, step_of_fetch_error hr hf⟩
  | ok i =>
    obtain ⟨t, ht, -⟩ := exec_cases i s
    exact ⟨t, (step_of_fetch hr hf).trans ht⟩

/-- Settles O29. -/
theorem runningMachineAlwaysSteps : Obligations.RunningMachineAlwaysSteps := fun _ => step_of_running

/-- A run's first step is the machine's. -/
theorem run_succ_of_step (k : Nat) (h : step s = .next t) : Host.Core.run core (k + 1) s = Host.Core.run core k t := by
  have hcore : core.step s = .next t := h
  simp only [Host.Core.run, hcore]

/-- Settles O32, by induction on the length: after one step the machine is Running, and the rest of the run is shorter, or it is
Halted, within fewer steps than the run's unless the run is that one step. -/
theorem runsGoOnUntilHalted : Obligations.RunsGoOnUntilHalted := by
  intro k
  induction k with
  | zero => exact fun s hs _ => .inl ⟨s, rfl, hs⟩
  | succ k ih =>
    intro s hs hr
    obtain ⟨t, ht⟩ := step_of_running hr
    have hinv := step_keeps_inv hs ht
    cases hrun : t.run with
    | running =>
      rw [run_succ_of_step k ht]
      refine (ih t hinv hrun).imp_right ?_
      rintro ⟨j, hj, u, hu, hhalt, huinv⟩
      exact ⟨j + 1, by omega, u, (run_succ_of_step j ht).trans hu, hhalt, huinv⟩
    | halted =>
      cases k with
      | zero => exact .inl ⟨t, run_succ_of_step 0 ht, hinv⟩
      | succ k => exact .inr ⟨1, by omega, t, run_succ_of_step 0 ht, hrun, hinv⟩

end Sys2Proof.Machine
end

section
/-! Memory: its one write, its canonical form as data, and reset with an image (`20_memory.md`, `70_reset_and_hazards.md`
section 1). -/

namespace Sys2Proof.Machine

/-- Settles O6: below 256 the write is `Memory.put`, which changes the one cell and keeps the canonical form. -/
theorem memWriteChangesExactlyOneCell : Obligations.MemWriteChangesExactlyOneCell := by
  refine fun s a v => ⟨memWrite_error s v, fun ha => ⟨_, memWrite_ok s v ha, ?_, fun w hw => ?_, rfl, rfl, rfl,
    ⟨rfl, rfl⟩, rfl, Memory.put_wf s.mem a v ha⟩⟩
  · rw [memRead_ok _ ha, cell_with_put, if_pos rfl]
  · rw [cell_with_put, if_neg (Ne.symm (List.ne_of_not_mem_cons hw))]

/-- An entry of a canonical memory is what its cell reads. -/
theorem Memory.cell_of_mem {m : Memory} {c : Host.Cell} (hm : m.wf) (hc : c ∈ m) : m.cell c.1 = c.2 := by
  induction m with
  | nil => cases hc
  | cons d m ih =>
    rcases List.mem_cons.1 hc with rfl | hmem
    · exact if_pos rfl
    · have hlt : d.1 < c.1 := (List.pairwise_cons.1 hm.1).1 c hmem
      exact (if_neg hlt.ne).trans (ih (Memory.wf_tail hm) hmem)

/-- A canonical memory lists exactly the cells that do not read as the fill, each with what it reads. -/
theorem Memory.mem_iff_cell {m : Memory} (hm : m.wf) (c : Host.Cell) :
    c ∈ m ↔ m.cell c.1 = c.2 ∧ c.2 ≠ Config.memFill := by
  refine ⟨fun hc => ⟨Memory.cell_of_mem hm hc, (hm.2 c hc).2⟩, fun ⟨hcell, hfill⟩ => ?_⟩
  obtain ⟨d, hd, haddr⟩ : ∃ d ∈ m, d.1 = c.1 := by
    by_contra! hnone
    exact hfill (hcell ▸ Memory.cell_of_not_listed m c.1 hnone)
  have hval : d.2 = c.2 := by rw [← Memory.cell_of_mem hm hd, haddr, hcell]
  exact Prod.ext haddr hval ▸ hd

/-- Settles O7: memories that read alike list the same entries, and rising addresses leave them one order. -/
theorem canonicalMemoriesWithEqualCellsAreEqual : Obligations.CanonicalMemoriesWithEqualCellsAreEqual := by
  intro m n hm hn hcells
  have irrefl : Std.Irrefl fun c d : Host.Cell => c.1 < d.1 := ⟨fun _ => Nat.lt_irrefl _⟩
  have antisymm : Std.Antisymm fun c d : Host.Cell => c.1 < d.1 := ⟨fun _ _ h h' => absurd h (Nat.lt_asymm h')⟩
  refine hm.1.eq_of_mem_iff hn.1 fun c => ?_
  rw [Memory.mem_iff_cell hm, Memory.mem_iff_cell hn, hcells]

/-- Loading an image that fits places its bytes in memory and touches nothing else. -/
theorem loadImage_of_fits {image : List Byte} {a : Nat} (s : State) (h : a + image.length ≤ 256) :
    loadImage image a s = .ok { s with mem := placeBytes image a s.mem } := by
  induction image generalizing a s with
  | nil => rfl
  | cons v image ih =>
    rw [List.length_cons] at h
    have ha : a < Config.memSize := by simp only [Config.memSize]; omega
    rw [loadImage, memWrite_ok s v ha, except_ok_bind, ih _ (by omega), placeBytes, if_pos ha]

/-- Loading an image that does not fit fails at the first address beyond memory. -/
theorem loadImage_of_too_long {image : List Byte} {a : Nat} (s : State) (ha : a ≤ 256) (h : 256 < a + image.length) :
    loadImage image a s = .error (.outOfBounds 256) := by
  induction image generalizing a s with
  | nil => simp only [List.length_nil] at h; omega
  | cons v image ih =>
    rw [List.length_cons] at h
    rcases ha.lt_or_eq with hlt | rfl
    · rw [loadImage, memWrite_ok s v hlt, except_ok_bind, ih _ hlt (by omega)]
    · rw [loadImage, memWrite_error s v le_rfl, except_error_bind]

/-- Placed bytes that fit are read from their first address on, and every other cell reads as before. -/
theorem cell_placeBytes {bytes : List Byte} {a : Nat} (m : Memory) (b : Nat) (h : a + bytes.length ≤ 256) :
    (placeBytes bytes a m).cell b = if a ≤ b then bytes.getD (b - a) (m.cell b) else m.cell b := by
  induction bytes generalizing a m with
  | nil => simp [placeBytes]
  | cons v bytes ih =>
    rw [List.length_cons] at h
    have ha : a < Config.memSize := by simp only [Config.memSize]; omega
    rw [placeBytes, if_pos ha, ih _ (by omega), Memory.cell_put]
    rcases lt_trichotomy a b with hab | rfl | hab
    · obtain ⟨k, rfl⟩ := Nat.exists_eq_add_of_lt hab
      simp [hab.le, hab.ne, show a + k + 1 - a = k + 1 by omega, show a + k + 1 - (a + 1) = k by omega]
    · simp
    · simp [show ¬ a + 1 ≤ b by omega, hab.ne', hab.not_ge]

/-- Settles O8: reset lists no cell, and the image is placed in that memory. -/
theorem constructPlacesTheImageAndResetsTheRest : Obligations.ConstructPlacesTheImageAndResetsTheRest := by
  refine ⟨fun image hlen => ?_, fun image hlen => loadImage_of_too_long _ (Nat.zero_le _) (by omega), rfl⟩
  have hfits : 0 + image.length ≤ 256 := by omega
  refine ⟨_, loadImage_of_fits State.reset hfits, fun a => ?_, placeBytes_wf image 0 [] Memory.wf_nil, rfl, ?_,
    rfl, rfl, rfl, rfl, rfl⟩
  · exact (cell_placeBytes [] a hfits).trans (if_pos (Nat.zero_le a))
  · show ∀ r : Fin 8, r ≠ 7 → State.reset.x r = 0x00
    decide

end Sys2Proof.Machine
end

section
/-! The statements about one instruction or operation: what it writes, what it leaves, and its faults. -/

namespace Sys2Proof.Machine

/-- Settles O11: the interface's one write is the function's value, and the checks come before it in operand order. -/
theorem aluApplyWritesOnlyItsDestination : Obligations.AluApplyWritesOnlyItsDestination := by
  refine fun op d e s => ⟨fun hd he => ⟨fun v hv => ?_, fun hadd hsub hmul => ?_⟩, aluApply_bad_dest op e s,
    aluApply_bad_source op s⟩
  · refine ⟨s.setX ⟨d.toNat, hd⟩ v, ?_, State.x_setX_self .., fun r hr => ?_, rfl⟩
    · rw [aluApply_eq op s hd he, hv]
      rfl
    · exact State.x_setX_of_ne (h := Ne.symm (List.ne_of_not_mem_cons hr)) ..
  · rw [aluApply_eq op s hd he, alu_unsupported _ _ hadd hsub hmul]
    rfl

/-! ### The stack and subroutine instructions -/

/-- The slot a pushed byte goes to reads as that byte. -/
theorem State.pushed_cell_slot (s : State) (v : Byte) : (s.pushed v).cell (s.x 7 - 1).toNat = v := by
  rw [State.pushed_cell, if_pos rfl]

/-- Pushing a byte moves SP to the byte's slot, and changes nothing but SP and the slot. -/
theorem pushed_frame (s : State) (v : Byte) :
    (s.pushed v).x 7 = s.x 7 - 1 ∧ SameCellsBut s (s.pushed v) [(s.x 7 - 1).toNat] ∧ SameRegsBut s (s.pushed v) [7] := by
  refine ⟨?_, fun w hw => ?_, fun r hr => ?_⟩
  · rw [State.pushed_x, if_pos rfl]
  · rw [State.pushed_cell, if_neg (Ne.symm (List.ne_of_not_mem_cons hw))]
  · rw [State.pushed_x, if_neg (Ne.symm (List.ne_of_not_mem_cons hr))]

/-- Settles O16: the stored byte is the operand's register read after SP has moved. -/
theorem pushStoresBelowTheStackPointer : Obligations.PushStoresBelowTheStackPointer := by
  refine fun a => ⟨encodedAs_encode (.push a), fun s => ⟨fun ha => ?_, exec_push_bad s⟩⟩
  obtain ⟨hsp, hcells, hregs⟩ := pushed_frame s ((s.setX 7 (s.x 7 - 1)).x ⟨a.toNat, ha⟩)
  refine ⟨_, exec_push s ha, hsp, ?_, hcells, hregs, rfl, rfl, ⟨rfl, rfl⟩, rfl⟩
  rw [State.advance_cell, State.pushed_cell_slot, State.x_setX_sp]

/-- Incrementing SP leaves every other register. -/
theorem State.incSp_x_of_ne (s : State) {r : Fin 8} (hr : r ≠ 7) : s.incSp.x r = s.x r :=
  State.x_setX_of_ne (h := hr.symm) ..

theorem State.incSp_x_sp (s : State) : s.incSp.x 7 = s.x 7 + 1 := State.x_setX_self ..

/-- An operand byte other than 7 names a register other than SP. -/
theorem reg_ne_sp {a : Byte} {ha : a.toNat < 8} (h : a.toNat ≠ 7) : (⟨a.toNat, ha⟩ : Fin 8) ≠ 7 :=
  fun heq => h (congrArg Fin.val heq)

/-- Settles O17: the load comes first, and SP is then incremented from whatever the load left in register 7. -/
theorem popLoadsFromTheStackPointer : Obligations.PopLoadsFromTheStackPointer := by
  refine fun a => ⟨encodedAs_encode (.pop a), fun s => ⟨fun ha => ⟨_, exec_pop s ha, fun h7 => ⟨?_, ?_⟩, fun h7 => ?_,
    fun r hr => ?_, fun _ _ => rfl, rfl, rfl, ⟨rfl, rfl⟩, rfl⟩, exec_pop_bad s⟩⟩
  · rw [State.advance_x, State.incSp_x_of_ne _ (reg_ne_sp h7), State.x_setX_self]
  · rw [State.advance_x, State.incSp_x_sp, State.x_setX_of_ne (h := reg_ne_sp h7)]
  · have hreg : (⟨a.toNat, ha⟩ : Fin 8) = 7 := Fin.ext h7
    rw [State.advance_x, State.incSp_x_sp, hreg, State.x_setX_self]
  · simp only [List.mem_cons, List.not_mem_nil, or_false, not_or] at hr
    rw [State.advance_x, State.incSp_x_of_ne _ hr.2, State.x_setX_of_ne (h := Ne.symm hr.1)]

/-- Settles O18: the return address is the pushed byte, and the target is read after SP has moved. -/
theorem callPushesTheReturnAddressAndJumps : Obligations.CallPushesTheReturnAddressAndJumps := by
  refine fun a => ⟨encodedAs_encode (.call a), fun s => ⟨fun ha hpc => ?_, exec_call_bad s, exec_call_no_return s⟩⟩
  obtain ⟨hsp, hcells, hregs⟩ := pushed_frame s (BitVec.ofNat 8 (s.pc.toNat + 2))
  refine ⟨_, exec_call s ha hpc, ?_, hsp, ?_, hcells, hregs, rfl, ⟨rfl, rfl⟩, rfl⟩
  · rw [State.jump_pc_toNat, State.x_setX_sp]
  · rw [State.jump_cell, State.pushed_cell_slot, BitVec.toNat_ofNat, Nat.mod_eq_of_lt hpc]

/-- Settles O19: RET checks nothing. -/
theorem retJumpsToTheStackedByte : Obligations.RetJumpsToTheStackedByte :=
  ⟨encodedAs_encode .ret, fun s => ⟨_, exec_ret s, State.jump_pc_toNat .., State.incSp_x_sp s,
    fun _ hr => State.incSp_x_of_ne s (List.ne_of_not_mem_cons hr), fun _ _ => rfl, rfl, ⟨rfl, rfl⟩, rfl⟩⟩

/-! ### The branches and HLT -/

/-- An advance changes PC, and nothing else. -/
theorem advance_frame (s : State) (n : Nat) :
    (s.advance n).pc = s.pc + BitVec.ofNat 9 n ∧ SameRegsBut s (s.advance n) [] ∧ SameCellsBut s (s.advance n) [] ∧
      (s.advance n).equal = s.equal ∧ SameRunErr s (s.advance n) ∧ (s.advance n).out = s.out :=
  ⟨rfl, fun _ _ => rfl, fun _ _ => rfl, rfl, ⟨rfl, rfl⟩, rfl⟩

/-- Settles O22: the register is checked and read only when the flag is set. -/
theorem jeqBranchesWhenEqual : Obligations.JeqBranchesWhenEqual := fun a =>
  ⟨encodedAs_encode (.jeq a), fun s =>
    ⟨fun ha he => ⟨_, exec_jeq_taken s ha he, State.jump_pc_toNat .., jump_frame ..⟩,
      fun he => ⟨_, exec_jeq_not_taken s he, advance_frame ..⟩, exec_jeq_bad s⟩⟩

/-- Settles O23: the register is checked and read only when the flag is clear. -/
theorem jneBranchesWhenNotEqual : Obligations.JneBranchesWhenNotEqual := fun a =>
  ⟨encodedAs_encode (.jne a), fun s =>
    ⟨fun ha he => ⟨_, exec_jne_taken s ha he, State.jump_pc_toNat .., jump_frame ..⟩,
      fun he => ⟨_, exec_jne_not_taken s he, advance_frame ..⟩, exec_jne_bad s⟩⟩

/-- Settles O24. -/
theorem hltHaltsAndWritesNothingElse : Obligations.HltHaltsAndWritesNothingElse := ⟨encodedAs_encode .hlt, exec_hlt⟩

/-- A jump to PC's own value leaves the state as it is. -/
theorem State.jump_self {s : State} {v : Byte} (h : v.toNat = s.pc.toNat) : s.jump v = s := by
  have hpc : v.setWidth 9 = s.pc := BitVec.eq_of_toNat_eq ((BitVec.toNat_setWidth_of_le (by decide)).trans h)
  rw [State.jump, hpc]

/-- Settles O45. -/
theorem jumpToItselfDoesNotAdvance : Obligations.JumpToItselfDoesNotAdvance := by
  intro s a ha hf hpc
  rw [step_of_fetches hf, exec_jmp s ha, State.jump_self hpc]

end Sys2Proof.Machine
end

section
/-! Frames over every step: which instruction writes the flag, a cell or a register. -/

namespace Sys2Proof.Machine

variable {s t : State} {i : Instr}

/-- A step that changes what the fault entry leaves has completed the instruction at PC. -/
theorem completes_of_changed {α : Type} (f : State → α) (hraised : ∀ e, f (s.raised e) = f s) (h : step s = .next t)
    (hne : f t ≠ f s) : ∃ i, Fetches s i ∧ Completes s t i := by
  obtain ⟨-, hc | ⟨e, rfl⟩⟩ := step_completes_or_raised h
  · exact hc
  · exact absurd (hraised e) hne

/-- A completing instruction leaves the flag, or is a CMP. -/
theorem completes_equal (h : Completes s t i) : t.equal = s.equal ∨ ∃ a b, i = .cmp a b := by
  cases i <;> simp only [Completes] at h <;>
    grind [State.advance_equal, State.jump_equal, State.setX_equal, State.pushed_equal, State.incSp_eq, State.emit_equal,
      State.halt_equal]

/-- A completing instruction leaves memory, or is a PUSH or a CALL. -/
theorem completes_mem_eq (h : Completes s t i) : t.mem = s.mem ∨ ∃ a, i = .push a ∨ i = .call a := by
  cases i <;> simp only [Completes] at h <;>
    grind [State.advance_mem, State.jump_mem, State.setX_mem, State.incSp_eq, State.emit_mem, State.setEqual_mem,
      State.halt_mem]

/-- Settles O34: a step that changes the flag has completed a CMP. -/
theorem onlyCmpWritesTheFlag : Obligations.OnlyCmpWritesTheFlag := by
  intro s t h hne
  obtain ⟨i, hf, hc⟩ := completes_of_changed State.equal (State.raised_equal s) h hne
  obtain heq | ⟨a, b, rfl⟩ := completes_equal hc
  · exact absurd heq hne
  · exact ⟨a, b, hf⟩

/-- A completing instruction leaves every cell but the one below SP. -/
theorem completes_cell {w : Nat} (hw : w ≠ (s.x 7 - 1).toNat) (h : Completes s t i) : t.cell w = s.cell w := by
  rcases completes_mem h with hm | ⟨v, hm⟩
  · rw [State.cell, State.cell, hm]
  · rw [State.cell, State.cell, hm, Memory.cell_put, if_neg hw.symm]

/-- Settles O36: a step that changes a cell has completed an instruction that writes memory, and that cell is the slot. -/
theorem onlyPushAndCallWriteMemory : Obligations.OnlyPushAndCallWriteMemory := by
  intro s t w h hne
  obtain ⟨i, hf, hc⟩ := completes_of_changed (·.cell w) (fun e => State.raised_cell s e w) h hne
  refine ⟨by_contra fun hw => hne (completes_cell hw hc), ?_⟩
  obtain hmem | ⟨a, rfl | rfl⟩ := completes_mem_eq hc
  · exact absurd (congrArg (Memory.cell · w) hmem) hne
  · exact ⟨a, .inl hf⟩
  · exact ⟨a, .inr hf⟩

/-- A write to a listed register leaves a register that is not. -/
theorem x_setX_of_not_listed {q r : Fin 8} {ws : List Nat} (v : Byte) (hq : q.val ∈ ws) (hr : r.val ∉ ws) :
    (s.setX q v).x r = s.x r :=
  State.x_setX_of_ne (h := fun heq => hr (heq ▸ hq)) ..

/-- A completing instruction leaves every register it is not listed as writing. -/
theorem completes_x {r : Fin 8} (hr : r.val ∉ writtenRegisters i) (h : Completes s t i) : t.x r = s.x r := by
  cases i with
  | add a b => obtain ⟨ha, hb, rfl⟩ := h; exact x_setX_of_not_listed _ (.head _) hr
  | mul a b => obtain ⟨ha, hb, rfl⟩ := h; exact x_setX_of_not_listed _ (.head _) hr
  | ldi a imm => obtain ⟨ha, rfl⟩ := h; exact x_setX_of_not_listed _ (.head _) hr
  | push a => obtain ⟨ha, rfl⟩ := h; exact x_setX_of_not_listed _ (.head _) hr
  | call a => obtain ⟨ha, -, rfl⟩ := h; exact x_setX_of_not_listed _ (.head _) hr
  | ret => subst h; exact x_setX_of_not_listed _ (.head _) hr
  | pop a =>
    obtain ⟨ha, rfl⟩ := h
    exact (x_setX_of_not_listed _ (.tail _ (.head _)) hr).trans (x_setX_of_not_listed _ (.head _) hr)
  | cmp a b => obtain ⟨ha, hb, rfl⟩ := h; rfl
  | prn a => obtain ⟨ha, rfl⟩ := h; rfl
  | jmp a => obtain ⟨ha, rfl⟩ := h; rfl
  | jeq a => rcases h with ⟨-, ha, rfl⟩ | ⟨-, rfl⟩ <;> rfl
  | jne a => rcases h with ⟨-, ha, rfl⟩ | ⟨-, rfl⟩ <;> rfl
  | hlt => subst h; rfl

/-- Settles O37: a step that changes a register has completed an instruction that writes it. -/
theorem registersAreWrittenOnlyByTheirWriters : Obligations.RegistersAreWrittenOnlyByTheirWriters := by
  intro s t r h hne
  obtain ⟨i, hf, hc⟩ := completes_of_changed (·.x r) (State.raised_x s r) h hne
  exact ⟨i, hf, by_contra fun hr => hne (completes_x hr hc)⟩

/-- Settles O33: from a state without error report, the instruction that completes leaves none. -/
theorem faultingStepWritesNothing : Obligations.FaultingStepWritesNothing := by
  intro s t hs h hne
  obtain ⟨-, ⟨i, -, hc⟩ | ⟨e, rfl⟩⟩ := step_completes_or_raised h
  · exact absurd ((completes_err hc).trans hs) hne
  · rfl

end Sys2Proof.Machine
end

section
/-! A register that an instruction does not name: the instruction does the same whatever it holds (`10_state.md` section 1). -/

namespace Sys2Proof.Machine

variable {s t : State} {i : Instr} {r : Fin 8}

/-- A register `r` is inert in an instruction when it is not SP and no register operand names it. -/
def Inert (r : Fin 8) (i : Instr) : Prop := r ≠ 7 ∧ ∀ a ∈ i.registerOperands, a.toNat ≠ r.val

/-- An operand of the instruction names a register other than an inert one. -/
theorem Inert.ne_operand {a : Byte} {ha : a.toNat < 8} (h : Inert r i) (hmem : a ∈ i.registerOperands) :
    r ≠ ⟨a.toNat, ha⟩ :=
  fun heq => h.2 a hmem (congrArg Fin.val heq).symm

/-- An inert register is not written. -/
theorem Inert.not_written (h : Inert r i) : r.val ∉ writtenRegisters i := by
  have h7 : r.val ≠ 7 := fun h' => h.1 (Fin.ext h')
  cases i <;> simp [writtenRegisters, h7] <;> exact Ne.symm (h.2 _ (.head _))

/-- Writes to two registers commute. -/
theorem State.setX_comm {q : Fin 8} (s : State) (v w : Byte) (h : r ≠ q) :
    (s.setX r v).setX q w = (s.setX q w).setX r v := by
  have hval : r.val ≠ q.val := fun h' => h (Fin.ext h')
  simp only [State.setX, Vector.set_comm v w hval]

/-- SP reads the same whatever an inert register holds. -/
theorem Inert.sp_setX (h : Inert r i) (v : Byte) : (s.setX r v).x 7 = s.x 7 := State.x_setX_of_ne (h := h.1) ..

/-- An operand's register reads the same whatever an inert register holds. -/
theorem Inert.operand_setX {a : Byte} {ha : a.toNat < 8} (h : Inert r i) (hmem : a ∈ i.registerOperands) (v : Byte) :
    (s.setX r v).x ⟨a.toNat, ha⟩ = s.x ⟨a.toNat, ha⟩ :=
  State.x_setX_of_ne (h := h.ne_operand hmem) ..

/-- Moving SP up commutes with a write to an inert register. -/
theorem Inert.incSp_setX (h : Inert r i) (v : Byte) : (s.setX r v).incSp = s.incSp.setX r v := by
  rw [State.incSp_eq, State.incSp_eq, h.sp_setX, State.setX_comm _ _ _ h.1]

/-- A push commutes with a write to an inert register. -/
theorem Inert.pushed_setX (h : Inert r i) (v w : Byte) : (s.setX r v).pushed w = (s.pushed w).setX r v := by
  simp only [State.pushed, h.sp_setX, State.setX_comm _ _ _ h.1, State.setX_mem]
  rfl

/-- A write to an operand's register commutes with one to an inert register. -/
theorem Inert.setX_operand {a : Byte} {ha : a.toNat < 8} (h : Inert r i) (hmem : a ∈ i.registerOperands) (v w : Byte) :
    (s.setX r v).setX ⟨a.toNat, ha⟩ w = (s.setX ⟨a.toNat, ha⟩ w).setX r v :=
  State.setX_comm _ _ _ (h.ne_operand hmem)

/-- An operand's register, read after SP has moved down, reads the same whatever an inert register holds. -/
theorem Inert.operand_setX_sp {a : Byte} {ha : a.toNat < 8} (h : Inert r i) (hmem : a ∈ i.registerOperands) (v : Byte) :
    ((s.setX r v).setX 7 ((s.setX r v).x 7 - 1)).x ⟨a.toNat, ha⟩ = (s.setX 7 (s.x 7 - 1)).x ⟨a.toNat, ha⟩ := by
  rw [h.sp_setX, State.setX_comm _ _ _ h.1, h.operand_setX hmem]

/-- No check reads a register's value. -/
theorem faultOf_setX (v : Byte) : faultOf (s.setX r v) i = faultOf s i := by
  cases i <;> rfl

/-- A completing instruction completes alike whatever an inert register holds. -/
theorem completes_setX (v : Byte) (h : Inert r i) (hc : Completes s t i) : Completes (s.setX r v) (t.setX r v) i := by
  cases i with
  | add a b =>
    obtain ⟨ha, hb, rfl⟩ := hc
    exact ⟨ha, hb, by rw [h.operand_setX (.head _), h.operand_setX (.tail _ (.head _)), h.setX_operand (.head _)]; rfl⟩
  | mul a b =>
    obtain ⟨ha, hb, rfl⟩ := hc
    exact ⟨ha, hb, by rw [h.operand_setX (.head _), h.operand_setX (.tail _ (.head _)), h.setX_operand (.head _)]; rfl⟩
  | cmp a b =>
    obtain ⟨ha, hb, rfl⟩ := hc
    exact ⟨ha, hb, by rw [h.operand_setX (.head _), h.operand_setX (.tail _ (.head _))]; rfl⟩
  | ldi a imm =>
    obtain ⟨ha, rfl⟩ := hc
    exact ⟨ha, by rw [h.setX_operand (.head _)]; rfl⟩
  | prn a =>
    obtain ⟨ha, rfl⟩ := hc
    exact ⟨ha, by rw [h.operand_setX (.head _)]; rfl⟩
  | push a =>
    obtain ⟨ha, rfl⟩ := hc
    exact ⟨ha, by rw [h.operand_setX_sp (.head _), h.pushed_setX]; rfl⟩
  | pop a =>
    obtain ⟨ha, rfl⟩ := hc
    exact ⟨ha, by rw [h.sp_setX, h.setX_operand (.head _), h.incSp_setX]; rfl⟩
  | call a =>
    obtain ⟨ha, hpc, rfl⟩ := hc
    exact ⟨ha, hpc, by rw [h.operand_setX_sp (.head _), h.pushed_setX]; rfl⟩
  | ret =>
    subst hc
    rw [Completes, h.sp_setX, h.incSp_setX]
    rfl
  | jmp a =>
    obtain ⟨ha, rfl⟩ := hc
    exact ⟨ha, by rw [h.operand_setX (.head _)]; rfl⟩
  | jeq a =>
    rcases hc with ⟨he, ha, rfl⟩ | ⟨he, rfl⟩
    · exact .inl ⟨he, ha, by rw [h.operand_setX (.head _)]; rfl⟩
    · exact .inr ⟨he, rfl⟩
  | jne a =>
    rcases hc with ⟨he, ha, rfl⟩ | ⟨he, rfl⟩
    · exact .inl ⟨he, ha, by rw [h.operand_setX (.head _)]; rfl⟩
    · exact .inr ⟨he, rfl⟩
  | hlt => subst hc; rfl

/-- An instruction does the same whatever an inert register holds, and leaves that register. -/
theorem exec_setX (v : Byte) (h : Inert r i) (hx : exec i s = .next t) :
    t.x r = s.x r ∧ exec i (s.setX r v) = .next (t.setX r v) := by
  cases hf : faultOf s i with
  | some e =>
    rw [exec_of_faultOf_some hf] at hx
    cases hx
    exact ⟨rfl, exec_of_faultOf_some ((faultOf_setX v).trans hf)⟩
  | none =>
    obtain ⟨u, hu⟩ := completes_of_faultOf_none hf
    rw [exec_of_completes hu] at hx
    cases hx
    exact ⟨completes_x h.not_written hu, exec_of_completes (completes_setX v h hu)⟩

/-- Settles O38: the fetch reads no register, and the instruction is the same in both states. -/
theorem unnamedRegisterIsInert : Obligations.UnnamedRegisterIsInert := by
  intro s t r v i h7 hf hnamed h
  rw [step_of_fetches hf] at h
  obtain ⟨hx, hexec⟩ := exec_setX v ⟨h7, hnamed⟩ h
  exact ⟨hx, (step_of_fetches (s := s.setX r v) hf).trans hexec⟩

end Sys2Proof.Machine
end

section
/-! The statements about the error reports of a step, and about how a run ends (`60_exceptions.md`, `70_reset_and_hazards.md`). -/

namespace Sys2Proof.Machine

variable {s t : State} {i : Instr}

/-- The first register operand is checked before anything else is. -/
theorem exec_of_bad_first_operand {a b : Byte} (ha : 8 ≤ a.toNat) (hi : i ∈ [.add a b, .mul a b, .cmp a b, .call a]) :
    exec i s = .next (s.raised (.invalidRegister a)) := by
  simp only [List.mem_cons, List.not_mem_nil, or_false] at hi
  rcases hi with rfl | rfl | rfl | rfl
  · exact exec_add_bad_a s b ha
  · exact exec_mul_bad_a s b ha
  · exact exec_cmp_bad_a s b ha
  · exact exec_call_bad s ha

/-- Settles O26: a fetch answers by the first of its reads that fails, and a handler by the first of its checks. -/
theorem faultsAreRaisedInTheOrderOfTheStep : Obligations.FaultsAreRaisedInTheOrderOfTheStep := by
  refine ⟨fun s hr => ⟨fun hpc => step_of_fetch_error hr (fetchInstr_beyond hpc), step_of_not_legal hr,
    fun hpc hop hn => ?_, fun hop hn => ?_⟩, fun _ _ _ _ => exec_of_bad_first_operand⟩
  · obtain ⟨row, hl, hrow⟩ := (legal_iff_lookup _).1 hop
    exact step_of_fetch_error hr (fetchInstr_operand_beyond hpc hl (hrow ▸ hn))
  · obtain ⟨row, hl, hrow⟩ := (legal_iff_lookup _).1 hop
    have hf := fetchInstr_row hl (hrow ▸ hn)
    exact ⟨_, ⟨hr, (fetchInstr_ok_iff s _).1 hf⟩, step_of_fetch hr hf⟩

/-- What a step can report from a state of the invariant: nothing, an access at 256, a bad register, or an illegal opcode. -/
theorem step_err_cases (hs : s.Inv) (h : step s = .next t) :
    t.err = none ∨ t.err = some (.outOfBounds 256) ∨ (∃ k, t.err = some (.invalidRegister k)) ∨
      ∃ op, t.err = some (.illegalInstruction op) := by
  obtain ⟨hr, ⟨i, ⟨-, hlen, -⟩, hx⟩ | ⟨e, he, rfl⟩⟩ := step_cases h
  · obtain ⟨u, hu, hcases⟩ := exec_cases i s
    cases hx.symm.trans hu
    rcases hcases with hc | ⟨k, -, -, rfl⟩ | ⟨a, rfl, hret, rfl⟩
    · exact .inl ((completes_err hc).trans (hs.err_none_of_running hr))
    · exact .inr (.inr (.inl ⟨k, rfl⟩))
    · have hret' : s.pc.toNat + 2 = 256 := Nat.le_antisymm hlen hret
      exact .inr (.inl (by rw [State.raised_err, hret']))
  · rcases fetchInstr_error_cases he with ⟨hpc, rfl⟩ | ⟨-, -, rfl⟩ | ⟨-, rfl⟩
    · have hpc' : s.pc.toNat = 256 := Nat.le_antisymm hs.pc_le hpc
      exact .inr (.inl (by rw [State.raised_err, hpc']))
    · exact .inr (.inr (.inr ⟨_, rfl⟩))
    · exact .inr (.inl rfl)

/-- Settles O39. -/
theorem outOfBoundsReports256 : Obligations.OutOfBoundsReports256 := by
  intro s t a hs h ha
  rcases step_err_cases hs h with herr | herr | ⟨k, herr⟩ | ⟨op, herr⟩ <;> cases ha.symm.trans herr
  rfl

/-- Settles O40. -/
theorem noStepReportsUnsupportedOperation : Obligations.NoStepReportsUnsupportedOperation := by
  intro s t op hs h hop
  rcases step_err_cases hs h with herr | herr | ⟨k, herr⟩ | ⟨o, herr⟩ <;> cases hop.symm.trans herr

/-- An instruction accesses no register but its operands'. -/
theorem mem_registerOperands_of_accessed {a : Byte} (h : a ∈ accessedRegisters s i) : a ∈ i.registerOperands := by
  cases i with
  | jeq b =>
    simp only [accessedRegisters] at h
    split at h
    · exact h
    · cases h
  | jne b =>
    simp only [accessedRegisters] at h
    split at h
    · cases h
    · exact h
  | _ => exact h

/-- A return address that fits is no fault. -/
theorem badReturnAddress_eq_none (h : ∀ a, i = .call a → s.pc.toNat + 2 < 256) : badReturnAddress s i = none := by
  refine Option.eq_none_iff_forall_ne_some.2 fun ret hret => ?_
  obtain ⟨a, rfl, hpc, -⟩ := badReturnAddress_eq_some hret
  exact absurd (h a rfl) (Nat.not_lt.2 hpc)

/-- Settles O42: none of the instruction's checks can fail. -/
theorem wellFormedInstructionsComplete : Obligations.WellFormedInstructionsComplete := by
  intro i s hi hs hcall
  obtain ⟨t, ht⟩ := completes_of_valid (s := s) (fun a ha => hi a (mem_registerOperands_of_accessed ha))
    (badReturnAddress_eq_none hcall)
  exact ⟨t, exec_of_completes ht, (completes_err ht).trans hs⟩

/-- HLT stands at the PC of a Running machine exactly when its byte does, inside memory. -/
theorem fetches_hlt_iff (hr : s.run = .running) : Fetches s .hlt ↔ s.pc.toNat < 256 ∧ s.cell s.pc.toNat = 0x01 := by
  constructor
  · rintro ⟨-, hlen, hold⟩
    exact ⟨hlen, hold 0 0x01 rfl⟩
  · rintro ⟨hpc, hop⟩
    refine ⟨hr, hpc, fun k v hk => ?_⟩
    match k, hk with
    | 0, rfl => exact hop

/-- Settles O43: of the two ways a step leaves the machine Halted, HLT and a fault, only HLT leaves no report. -/
theorem endsWellExactlyAtHlt : Obligations.EndsWellExactlyAtHlt := by
  intro s t hs h
  obtain ⟨hr, -⟩ := step_cases h
  rw [← fetches_hlt_iff hr]
  constructor
  · rintro ⟨hhalt, herr⟩
    rcases (runChangesOnlyByHltOrFault.2.2 s t hr h).1 hhalt with hf | ⟨e, rfl⟩
    · exact hf
    · cases herr
  · intro hf
    rw [step_of_fetches hf, exec_hlt] at h
    cases h
    exact ⟨rfl, hs.err_none_of_running hr⟩

end Sys2Proof.Machine
end

section
/-! Instructions together: the stack discipline, the linkage, compare and branch, and a store that is fetched. -/

namespace Sys2Proof.Machine

/-- SP moved down and up again is where it was, across the wrap too. -/
theorem sp_sub_add (v : Byte) : v - 1 + 1 = v := BitVec.sub_add_cancel v 1

/-- Settles O46: POP reads the slot PUSH wrote, at the SP PUSH left; the operand's register gets its own value back, and SP moves
back by one, from the SP that was stored when the operand is register 7. -/
theorem pushThenPopIsARoundTrip : Obligations.PushThenPopIsARoundTrip := by
  intro s a ha
  obtain ⟨t, ht, htsp, htslot, htcells, htregs, htpc, hteq, ⟨htrun, hterr⟩, htout⟩ :=
    ((pushStoresBelowTheStackPointer a).2 s).1 ha
  obtain ⟨u, hu, huother, husp, huregs, hucells, hupc, hueq, ⟨hurun, huerr⟩, huout⟩ :=
    ((popLoadsFromTheStackPointer a).2 t).1 ha
  rw [htsp, htslot] at huother husp
  have hsp : u.x 7 = s.x 7 := by
    by_cases h7 : a.toNat = 7
    · rw [husp h7, if_pos h7, sp_sub_add]
    · rw [(huother h7).2, sp_sub_add]
  have hoperand : u.x ⟨a.toNat, ha⟩ = s.x ⟨a.toNat, ha⟩ := by
    by_cases h7 : a.toNat = 7
    · have hreg : (⟨a.toNat, ha⟩ : Fin 8) = 7 := Fin.ext h7
      rw [hreg, hsp]
    · rw [(huother h7).1, if_neg h7]
  refine ⟨t, u, ht, hu, fun r _ => ?_, fun w hw => ?_, ?_, hueq.trans hteq, ⟨hurun.trans htrun, huerr.trans hterr⟩,
    huout.trans htout⟩
  · by_cases h7 : r = 7
    · rw [h7, hsp]
    · by_cases hr : r = ⟨a.toNat, ha⟩
      · rw [hr, hoperand]
      · rw [huregs r (by simp [hr, h7]), htregs r (by simp [h7])]
  · rw [hucells w List.not_mem_nil, htcells w hw]
  · rw [hupc, htpc, BitVec.add_assoc]
    rfl

theorem toNat_ne_seven {a : Byte} (h : a ≠ 7) : a.toNat ≠ 7 := fun h' => h (BitVec.eq_of_toNat_eq h')

/-- PUSH of a register other than SP: its value goes to the slot below SP, and SP to the slot. -/
theorem exec_push_other (s : State) {a : Byte} (ha : a.toNat < 8) (h7 : a ≠ 7) :
    ∃ t, exec (.push a) s = .next t ∧ t.x 7 = s.x 7 - 1 ∧ t.cell (s.x 7 - 1).toNat = s.x ⟨a.toNat, ha⟩ ∧
      SameCellsBut s t [(s.x 7 - 1).toNat] ∧ SameRegsBut s t [7] := by
  obtain ⟨t, ht, hsp, hslot, hcells, hregs, -⟩ := ((pushStoresBelowTheStackPointer a).2 s).1 ha
  rw [if_neg (toNat_ne_seven h7)] at hslot
  exact ⟨t, ht, hsp, hslot, hcells, hregs⟩

/-- POP to a register other than SP: it gets the byte at SP, and SP moves up. -/
theorem exec_pop_other (s : State) {a : Byte} (ha : a.toNat < 8) (h7 : a ≠ 7) :
    ∃ t, exec (.pop a) s = .next t ∧ t.x ⟨a.toNat, ha⟩ = s.cell (s.x 7).toNat ∧ t.x 7 = s.x 7 + 1 ∧
      SameRegsBut s t [⟨a.toNat, ha⟩, 7] ∧ SameCellsBut s t [] := by
  obtain ⟨t, ht, hother, -, hregs, hcells, -⟩ := ((popLoadsFromTheStackPointer a).2 s).1 ha
  obtain ⟨hload, hsp⟩ := hother (toNat_ne_seven h7)
  exact ⟨t, ht, hload, hsp, hregs, hcells⟩

/-- Settles O47: the second slot is below the first, so that the first POP reads the second and leaves SP at the first, which
nothing has written since. -/
theorem stackIsLastInFirstOut : Obligations.StackIsLastInFirstOut := by
  intro s a b c d ha hb hc hd ha7 hb7 hc7 hd7
  obtain ⟨t, ht, htsp, htslot, htcells, htregs⟩ := exec_push_other s ha ha7
  obtain ⟨u, hu, husp, huslot, hucells, -⟩ := exec_push_other t hb hb7
  obtain ⟨v, hv, hvload, hvsp, -, hvcells⟩ := exec_pop_other u hc hc7
  obtain ⟨w, hw, hwload, hwsp, hwregs, -⟩ := exec_pop_other v hd hd7
  have hsp : v.x 7 = t.x 7 := by rw [hvsp, husp, sp_sub_add]
  have hslots : (t.x 7).toNat ≠ (t.x 7 - 1).toNat := by bv_omega
  have hfirst : v.cell (v.x 7).toNat = s.x ⟨a.toNat, ha⟩ := by
    rw [hsp, hvcells _ List.not_mem_nil, hucells _ (by simpa using hslots), htsp, htslot]
  have hb_reg : (⟨b.toNat, hb⟩ : Fin 8) ≠ 7 := reg_ne_sp (toNat_ne_seven hb7)
  have hc_reg : (⟨c.toNat, hc⟩ : Fin 8) ≠ 7 := reg_ne_sp (toNat_ne_seven hc7)
  refine ⟨t, u, v, w, ht, hu, hv, hw, fun hcd => ?_, hwload.trans hfirst, by rw [hwsp, hsp, htsp, sp_sub_add]⟩
  have hcd_reg : (⟨c.toNat, hc⟩ : Fin 8) ≠ ⟨d.toNat, hd⟩ := by
    simpa [BitVec.toNat_inj] using hcd
  rw [hwregs _ (by simpa [hcd_reg] using hc_reg), hvload, husp, huslot, htregs _ (by simpa using hb_reg)]

/-- Settles O48: RET reads the slot CALL wrote, at the SP CALL left. -/
theorem callThenRetReturns : Obligations.CallThenRetReturns := by
  intro s a ha hpc
  obtain ⟨t, ht, -, htsp, htslot, htcells, htregs, hteq, ⟨htrun, hterr⟩, htout⟩ :=
    ((callPushesTheReturnAddressAndJumps a).2 s).1 ha (by omega)
  obtain ⟨u, hu, hupc, husp, huregs, hucells, hueq, ⟨hurun, huerr⟩, huout⟩ := retJumpsToTheStackedByte.2 t
  refine ⟨t, u, ht, hu, by rw [hupc, htsp, htslot], fun r _ => ?_, fun w hw => ?_, hueq.trans hteq,
    ⟨hurun.trans htrun, huerr.trans hterr⟩, huout.trans htout⟩
  · by_cases h7 : r = 7
    · rw [h7, husp, htsp, sp_sub_add]
    · rw [huregs r (by simpa using h7), htregs r (by simpa using h7)]
  · rw [hucells w List.not_mem_nil, htcells w hw]

/-- Settles O49: the flag CMP leaves decides both branches, and CMP leaves the target's register. -/
theorem compareThenBranch : Obligations.CompareThenBranch := by
  intro s a b c ha hb hc
  obtain ⟨t, ht, hflag, htpc, htregs, -⟩ := ((cmpSetsTheFlagToEquality a b).2 s).1 ha hb
  have htarget : t.x ⟨c.toNat, hc⟩ = s.x ⟨c.toNat, hc⟩ := htregs _ List.not_mem_nil
  cases he : t.equal with
  | true =>
    obtain ⟨u, hu, hupc, -⟩ := ((jeqBranchesWhenEqual c).2 t).1 hc he
    obtain ⟨v, hv, hvpc, -⟩ := ((jneBranchesWhenNotEqual c).2 t).2.1 he
    exact ⟨t, u, v, ht, hu, hv, fun _ => ⟨by rw [hupc, htarget], by rw [hvpc, htpc]⟩, fun hne => absurd (hflag.1 he) hne⟩
  | false =>
    obtain ⟨u, hu, hupc, -⟩ := ((jeqBranchesWhenEqual c).2 t).2.1 he
    obtain ⟨v, hv, hvpc, -⟩ := ((jneBranchesWhenNotEqual c).2 t).1 hc he
    refine ⟨t, u, v, ht, hu, hv, fun heq => ?_, fun _ => ⟨by rw [hvpc, htarget], by rw [hupc, htpc]⟩⟩
    rw [hflag.2 heq] at he
    cases he

/-- A PUSH or a CALL that completes stores a byte in the slot below SP, and its machine goes on running if it ran. -/
theorem exec_stores {s : State} {i : Instr} {a v : Byte} (ha : a.toNat < 8)
    (hstore : (i = .push a ∧ v = (if a.toNat = 7 then s.x 7 - 1 else s.x ⟨a.toNat, ha⟩)) ∨
      (i = .call a ∧ v.toNat = s.pc.toNat + 2)) :
    ∃ t, exec i s = .next t ∧ t.run = s.run ∧ t.cell (s.x 7 - 1).toNat = v ∧ SameCellsBut s t [(s.x 7 - 1).toNat] := by
  rcases hstore with ⟨rfl, rfl⟩ | ⟨rfl, hv⟩
  · obtain ⟨t, ht, -, hslot, hcells, -, -, -, ⟨hrun, -⟩, -⟩ := ((pushStoresBelowTheStackPointer a).2 s).1 ha
    exact ⟨t, ht, hrun, hslot, hcells⟩
  · obtain ⟨t, ht, -, -, hslot, hcells, -, -, ⟨hrun, -⟩, -⟩ :=
      ((callPushesTheReturnAddressAndJumps a).2 s).1 ha (hv ▸ v.isLt)
    exact ⟨t, ht, hrun, BitVec.eq_of_toNat_eq (hslot.trans hv.symm), hcells⟩

/-- Settles O50: the next step's fetch is the fetch over the memory before with the stored byte in its cell. -/
theorem storeIsSeenByTheVeryNextFetch : Obligations.StoreIsSeenByTheVeryNextFetch := by
  intro s i a v ha hf hstore
  obtain ⟨t, ht, hrun, hslot, hcells⟩ := exec_stores ha hstore
  have hr : t.run = .running := hrun.trans hf.1
  have hcell : ∀ b, t.cell b = if (s.x 7 - 1).toNat = b then v else s.cell b := fun b => by
    split
    · next hb => rw [← hb, hslot]
    · next hb => exact hcells b (by simpa using Ne.symm hb)
  refine ⟨t, (step_of_fetches hf).trans ht, by rw [memRead_byte, hslot], ?_⟩
  rintro fetched rfl
  rw [← fetchInstr_of_stored (s.x 7 - 1).isLt hcell]
  exact ⟨fun j hj => step_of_fetch hr hj, fun e he => step_of_fetch_error hr he⟩

end Sys2Proof.Machine
end
